-- ==== Sys2Proof/Word.lean ====
section
/-! DEFINITION. The words of the colour core: the widths of 00_scope.md R9 and R10 and of 30_encoding.md R42. -/

namespace Sys2Proof

/-- One 8-bit channel, brightness value or Frame byte (R9). -/
abbrev Byte := BitVec 8

/-- One operand field as it stands on the command port (R10, R42). -/
abbrev Word := BitVec 32

/-- A packed Color: red in bits 23 to 16, green in 15 to 8, blue in 7 to 0 (R9, R28). -/
abbrev Color := BitVec 24

/-- The OP field (R42, R43). -/
abbrev Opcode := BitVec 4

/-- One whole command: OP, OPA, OPB, OPC from the top bit down (R42). -/
abbrev CommandWord := BitVec 100

/-- The channel triple of 00_scope.md section 4 and of UNPACK's payload (R22). -/
structure Channels where
  red : Byte
  green : Byte
  blue : Byte
deriving DecidableEq, Repr

end Sys2Proof
end

