-- ==== Sys2Proof/Config.lean ====
section
/-! DEFINITION. What is fixed for the machine (00_scope.md R6 to R8, R26) and the values the spec leaves open
(60_exceptions.md R96; 93_implementation_defined.md U3, U4, U7). -/

namespace Sys2Proof

/-- PIXEL_COUNT (R6). -/
abbrev pixelCount : Nat := 4

/-- FRAME_BYTES (R7). -/
abbrev frameBytes : Nat := 3 * pixelCount

/-- The Frame a command builds: 12 bytes, byte 0 first toward the transmitter (R29, R30, R81). -/
abbrev Frame := Vector Byte frameBytes

/-- The type of pin identifiers (R8, D19). DESIGN CHOICE (log entry 2, safe): the spec's uninterpreted type is a
tag that no operation of the model looks at. -/
structure PinId where
  tag : Nat
deriving DecidableEq, Repr, Inhabited

/-- The type of the transmitter's failure reports (D25, U4). DESIGN CHOICE (log entry 3, safe): the spec's
uninterpreted type is a tag that no operation of the model looks at. -/
structure TxInfo where
  tag : Nat
deriving DecidableEq, Repr, Inhabited

/-- How one hand-off ends (R96): success, a failure report, or no return at all. -/
inductive TxOutcome where
  | ok
  | fail (info : TxInfo)
  | noReturn
deriving DecidableEq, Repr, Inhabited

/-- PIN (R8, R26), configured before the run (R113). DESIGN CHOICE (log entry 2, safe): it has no
body, so every claim holds for every PIN. -/
opaque Config.pin : PinId

/-- FREE VALUE (R96 "a draw under no law", U3). DESIGN CHOICE (log entry 4, safe): how the transmitter ends hand-off
number `n` when the start state does not say so. -/
opaque Config.txOutcome : Nat → TxOutcome

end Sys2Proof
end

