-- ==== Sys2Proof/Syntax.lean ====
section
/-! DEFINITION. The ten commands (30_encoding.md R43) with the operands each one reads (R44). -/

namespace Sys2Proof

/-- The mnemonics of the opcode map (R43). -/
inductive Mnemonic where
  | pack
  | unpack
  | fromHsl
  | scale
  | buildFrame
  | buildClear
  | setBrightness
  | getBrightness
  | showColor
  | clear
deriving DecidableEq, Repr

/-- One command with the operands it reads (R44): a signed32 operand as the integer it carries, a Color or
brightness operand as the bits it takes. An ignored field is no operand. DESIGN CHOICE (log entry 10, safe). -/
inductive Instr where
  | pack (red green blue : Int)
  | unpack (color : Color)
  | fromHsl (hue saturation luminosity : Int)
  | scale (color : Color) (brightness : Byte)
  | buildFrame (color : Color)
  | buildClear
  | setBrightness (value : Int)
  | getBrightness
  | showColor (color : Color)
  | clear
deriving DecidableEq, Repr

/-- The mnemonic of a command (R43, R47: each has exactly one). -/
def Instr.mnemonic : Instr → Mnemonic
  | .pack _ _ _ => .pack
  | .unpack _ => .unpack
  | .fromHsl _ _ _ => .fromHsl
  | .scale _ _ => .scale
  | .buildFrame _ => .buildFrame
  | .buildClear => .buildClear
  | .setBrightness _ => .setBrightness
  | .getBrightness => .getBrightness
  | .showColor _ => .showColor
  | .clear => .clear

end Sys2Proof
end

