-- ==== Sys2Proof/Machine/State.lean ====
section
/-! DEFINITION. The state of the colour core: the brightness register (10_state.md R13), what stands at the core's
ports (R21 to R25), and the reasons a step can stop. -/

namespace Sys2Proof.Machine

/-- The status codes of a response (R23). -/
inductive Status where
  | ok
  | txFail
  | illegal
deriving DecidableEq, Repr

/-- The payload of a response (R22). A field that the payload does not name has no value (U12), so each shape is a
constructor of its own. -/
inductive Payload where
  | none
  | color (c : Color)
  | channels (c : Channels)
  | frame (f : Frame)
  | brightness (b : Byte)
  | info (i : TxInfo)
deriving DecidableEq, Repr

/-- One response (R22). -/
structure Response where
  status : Status
  payload : Payload
deriving DecidableEq, Repr

/-- One hand-off to the transmitter (R24): the frame, the pin identifier, and `cutAt`, absent for a whole hand-off, or
the number of leading bytes handed over before a reset cut it short (R112). DEDUCED (log entry 8, unsafe for claims
about those bytes). -/
structure HandOff where
  frame : Frame
  pin : PinId
  cutAt : Option (Fin frameBytes)
deriving DecidableEq, Repr

/-- What becomes of the hand-off of a command that a reset abandons (R112, U6). -/
inductive HandOffExtent where
  | notMade
  | whole
  | cutShort (n : Fin frameBytes)
deriving DecidableEq, Repr

/-- What the host does next at the command port. -/
inductive HostEvent where
  /-- It issues a command after the previous response has returned (R21). -/
  | issue (w : CommandWord)
  /-- It issues a command before the previous response has returned (R114, U2, U14). DEDUCED (log
  entry 7, safe). -/
  | overlap (w : CommandWord)
  /-- It resets the core (R109). If the core waits for the transmitter, this abandons that command (R112).
  DEDUCED (log entries 8 and 9, unsafe if hardware cannot be reset there). -/
  | reset (extent : HandOffExtent)
  /-- It issues a command and a reset arrives before its response (R112). DEDUCED (log entry 8). -/
  | resetDuring (w : CommandWord) (extent : HandOffExtent)
deriving DecidableEq, Repr

/-- The state. `br` is the only architectural state (R13); the other fields stand at the core's ports. -/
structure State where
  /-- The brightness register BR (R16). -/
  br : Byte
  /-- The hand-off whose answer the core waits for; absent when the core is idle and ready (R25, R96, R111).
  DEDUCED (log entry 5, safe). -/
  inFlight : Option HandOff
  /-- What the host does next, in issue order (R15, R37). DEDUCED (log entry 1, safe). -/
  host : List HostEvent
  /-- The transmitter's answers that the start state fixes, the next first (R96, 95_test_vectors.md Part 3). DEDUCED
  (log entry 4, safe). -/
  txAnswers : List TxOutcome
  /-- How many free outcomes have been drawn; the model's own counter. DESIGN CHOICE (log entry 4). -/
  txDraws : Nat
  /-- The responses returned so far, oldest first (R22, R120). DESIGN CHOICE (log entry 15, safe). -/
  responses : List Response
  /-- The hand-offs that have ended, oldest first (R24, R120). DESIGN CHOICE (log entry 15, safe). -/
  handOffs : List HandOff
deriving DecidableEq, Repr

/-- Why a step stops with a fault. -/
inductive Fault where
  /-- The host issued an unassigned opcode (R45, U1). Raised by `accept`; safe: the spec tells a model to treat the
  issue as a fault. It carries the response the spec gives, (ILLEGAL, none). DEDUCED (log entry 6). -/
  | illegalOpcode (op : Opcode) (response : Response)
deriving DecidableEq, Repr

/-- Why a step is refused. -/
inductive Refusal where
  /-- The instruction has no meaning yet. Raised by `exec` only; safe. -/
  | notModelled (mnemonic : String)
  /-- The host issued a command before the previous response (R114, U2, U14). Raised by `accept`; safe: the spec
  gives no meaning to overlapped commands and says that a model refuses them. DEDUCED (log entry 7). -/
  | overlappedCommand
deriving DecidableEq, Repr

/-- What a step or the meaning of a command answers. -/
abbrev Result := Host.Outcome State Fault Refusal

/-- The value of BR at reset (R109). -/
def resetBrightness : Byte := 128

/-- The machine right after reset: BR is 128 (R109), idle, no hand-off pending (R111). The port fields start empty
and the counter at 0. DESIGN CHOICE (log entries 1, 4 and 15, unsafe for a claim that leans on them). -/
def State.reset : State where
  br := resetBrightness
  inFlight := none
  host := []
  txAnswers := []
  txDraws := 0
  responses := []
  handOffs := []

end Sys2Proof.Machine
end

