-- ==== Sys2Proof/Machine/Flags.lean ====
section
/-! DEFINITION. The core has no flags (10_state.md R19): a command reports its outcome through the status field of its
response alone. This file holds that field's codes and the shape of the payload. -/

namespace Sys2Proof.Machine

/-- The 2-bit code of a status; code 3 is unused (R23). -/
def Status.code : Status → BitVec 2
  | .ok => 0
  | .txFail => 1
  | .illegal => 2

/-- The payload shape that R22 fixes for a command and a status. -/
def payloadFits (m : Mnemonic) : Response → Bool
  | ⟨.ok, .none⟩ => m == .setBrightness || m == .showColor || m == .clear
  | ⟨.ok, .color _⟩ => m == .pack || m == .fromHsl || m == .scale
  | ⟨.ok, .channels _⟩ => m == .unpack
  | ⟨.ok, .frame _⟩ => m == .buildFrame || m == .buildClear
  | ⟨.ok, .brightness _⟩ => m == .getBrightness
  | ⟨.ok, .info _⟩ => false
  | ⟨.txFail, .info _⟩ => m == .showColor || m == .clear
  | ⟨.txFail, _⟩ => false
  | ⟨.illegal, _⟩ => false

end Sys2Proof.Machine
end

