-- ==== Sys2Proof/Machine/Operands.lean ====
section
/-! DEFINITION. The arithmetic notation of 00_scope.md section 4 and the channel fields of a Color (20_memory.md R28),
shared by every command. -/

namespace Sys2Proof.Machine

/-- `v & 0xFF`: the low byte of the two's-complement representation (00_scope.md section 4, D5). -/
def low8 (v : Int) : Byte := BitVec.ofInt 8 v

/-- `a << k` on an integer (00_scope.md section 4). -/
def shl (a : Int) (k : Nat) : Int := a * 2 ^ k

/-- `a >> k` on an integer: the floor of a / 2^k (00_scope.md section 4). -/
def shr (a : Int) (k : Nat) : Int := a / 2 ^ k

/-- `abs(v)` (00_scope.md section 4). -/
def absInt (v : Int) : Int := v.natAbs

/-- `clamp(v, lo, hi)` (00_scope.md section 4). -/
def clampInt (v lo hi : Int) : Int := if v < lo then lo else if v > hi then hi else v

/-- The red channel, bits 23 to 16 (R28). -/
def redOf (c : Color) : Byte := c.extractLsb' 16 8

/-- The green channel, bits 15 to 8 (R28). -/
def greenOf (c : Color) : Byte := c.extractLsb' 8 8

/-- The blue channel, bits 7 to 0 (R28). -/
def blueOf (c : Color) : Byte := c.extractLsb' 0 8

/-- `(red << 16) | (green << 8) | blue` (R28). -/
def packChannels (red green blue : Byte) : Color :=
  red.setWidth 24 <<< 16 ||| green.setWidth 24 <<< 8 ||| blue.setWidth 24

/-- A channel as the integer that the command rules compute with. -/
def channelInt (ch : Byte) : Int := ch.toNat

end Sys2Proof.Machine
end

