-- ==== Sys2Proof/Machine/Ops.lean ====
section
/-! DEFINITION. The operations every command is built from: reading and writing BR, returning a response, handing a
frame to the transmitter, and reset. The core has no trap entry and no trap return (60_exceptions.md R100, R101): a
failure is a response, so `respond` is the one operation by which a command reports success or failure. -/

namespace Sys2Proof.Machine

/-- The register read `BR` (00_scope.md section 4). -/
def readBr (s : State) : Byte := s.br

/-- The register write `BR <- v` (00_scope.md section 4). -/
def writeBr (v : Byte) (s : State) : State := { s with br := v }

/-- `respond(status, payload)`: the command ends and the host has its response (R22). -/
def respond (status : Status) (payload : Payload) (s : State) : State :=
  { s with responses := s.responses ++ [⟨status, payload⟩] }

/-- The response to an unassigned opcode (R45, R95). -/
def illegalResponse : Response := ⟨.illegal, .none⟩

/-- How the transmitter ends the next hand-off (R96): the answer the start state fixes, else the free value. -/
def nextOutcome (s : State) : TxOutcome :=
  match s.txAnswers with
  | o :: _ => o
  | [] => Config.txOutcome s.txDraws

/-- The state with that answer used up. -/
def useOutcome (s : State) : State :=
  match s.txAnswers with
  | _ :: rest => { s with txAnswers := rest }
  | [] => { s with txDraws := s.txDraws + 1 }

/-- A whole hand-off of a frame with the configured PIN (R24). -/
def wholeHandOff (frame : Frame) : HandOff := ⟨frame, Config.pin, none⟩

/-- The hand-off has ended and stands in the record (R120). -/
def recordHandOff (h : HandOff) (s : State) : State := { s with handOffs := s.handOffs ++ [h] }

/-- The core waits for the transmitter, which has not returned (R25, R96 case 3). DEDUCED (log entry 5, safe). -/
def awaitTransmitter (h : HandOff) (s : State) : State := { s with inFlight := some h }

/-- `transmit(frame, PIN)` and the response it leads to (R87, R88, R96): exactly one hand-off and no retry. -/
def transmit (frame : Frame) (s : State) : State :=
  match nextOutcome s with
  | .ok => respond .ok .none (recordHandOff (wholeHandOff frame) (useOutcome s))
  | .fail info => respond .txFail (.info info) (recordHandOff (wholeHandOff frame) (useOutcome s))
  | .noReturn => awaitTransmitter (wholeHandOff frame) (useOutcome s)

/-- The bytes of a hand-off that reached the transmitter, byte 0 first (R30, R112). -/
def HandOff.bytes (h : HandOff) : List Byte :=
  match h.cutAt with
  | none => h.frame.toList
  | some n => h.frame.toList.take n.val

/-- Every hand-off of the run so far, the one in progress last (R24, R120). -/
def allHandOffs (s : State) : List HandOff := s.handOffs ++ s.inFlight.toList

/-- What stands in the record of a hand-off whose command a reset abandons (R112, U6). -/
def abandonedHandOff (frame : Frame) : HandOffExtent → List HandOff
  | .notMade => []
  | .whole => [wholeHandOff frame]
  | .cutShort n => [⟨frame, Config.pin, some n⟩]

/-- Reset (R109, R111): BR is 128 and the core is idle. What the host and the transmitter have already seen, and what
they do next, is theirs and stays. DESIGN CHOICE (log entry 8, safe). -/
def resetCore (s : State) : State := { s with br := resetBrightness, inFlight := none }

end Sys2Proof.Machine
end

