-- ==== Sys2Proof/Machine/ColorCodec.lean ====
section
/-! DEFINITION. The ColorCodec commands PACK, UNPACK and FROM_HSL (40_color_codec.md R48 to R61). None reads or writes
BR or makes a hand-off, and none can fail. -/

namespace Sys2Proof.Machine

/-- PACK's result: each operand's low byte in its channel (R48). -/
def packColor (red green blue : Int) : Color := packChannels (low8 red) (low8 green) (low8 blue)

/-- UNPACK's result: the three channels of a Color (R49). -/
def unpackColor (c : Color) : Channels := ⟨redOf c, greenOf c, blueOf c⟩

/-- Step 2: the Euclidean remainder, in 0 to 359 (R52, D7). UNVERIFIED (log entry 17, unsafe for
negative hues). -/
def reduceHue (h0 : Int) : Int := h0 % 360

/-- Step 3: saturation and luminosity clamp to 0 to 99 (R53). -/
def clampPercent (v : Int) : Int := clampInt v 0 99

/-- Step 4: chroma (R54). -/
def chroma (s l : Int) : Int := ((100 - absInt (2 * l - 100)) * s * 256) / 10000

/-- Step 5: the sector `h1` (R55). -/
def hueSector (h : Int) : Int := h / 60

/-- Step 5: the sub-position `h2` (R55). -/
def subPosition (h : Int) : Int := ((h - hueSector h * 60) * 256) / 60

/-- Step 6: `temp` (R56). -/
def sectorTemp (h1 h2 : Int) : Int := absInt (shl (h1 % 2) 8 + h2 - 256)

/-- Step 7: the second-largest component `x` (R57). -/
def secondComponent (c temp : Int) : Int := shr (c * (256 - temp)) 8

/-- Step 8: the sector table (R58). `h1` is never outside 0 to 5 (R55), so the last row is sector 5's. -/
def routeSector (h1 c x : Int) : Int × Int × Int :=
  if h1 = 0 then (c, x, 0)
  else if h1 = 1 then (x, c, 0)
  else if h1 = 2 then (0, c, x)
  else if h1 = 3 then (0, x, c)
  else if h1 = 4 then (x, 0, c)
  else (c, 0, x)

/-- Step 9: the lightness offset `m`, two truncating divisions in this order (R59, R117). -/
def lightnessOffset (l c : Int) : Int :=
  let a := (shl (l * 2) 8).tdiv 100
  (a - c).tdiv 2

/-- FROM_HSL's result (R50). Step 1 is the identity on integer operands (R51). -/
def hslColor (h0 s0 l0 : Int) : Color :=
  let h := reduceHue h0
  let s := clampPercent s0
  let l := clampPercent l0
  let c := chroma s l
  let h1 := hueSector h
  let x := secondComponent c (sectorTemp h1 (subPosition h))
  let p := routeSector h1 c x
  let m := lightnessOffset l c
  packColor (p.1 + m) (p.2.1 + m) (p.2.2 + m)

/-- PACK (R48). -/
def execPack (red green blue : Int) (s : State) : Result :=
  .next (respond .ok (.color (packColor red green blue)) s)

/-- UNPACK (R49). -/
def execUnpack (color : Color) (s : State) : Result :=
  .next (respond .ok (.channels (unpackColor color)) s)

/-- FROM_HSL (R50). -/
def execFromHsl (hue saturation luminosity : Int) (s : State) : Result :=
  .next (respond .ok (.color (hslColor hue saturation luminosity)) s)

end Sys2Proof.Machine
end

