-- ==== Sys2Proof/Machine/BrightnessScaler.lean ====
section
/-! DEFINITION. The BrightnessScaler command SCALE (41_brightness_scaler.md R70 to R73). It has no saturation stage
(R73, 90_conflicts.md C5) and does not read BR (R18). -/

namespace Sys2Proof.Machine

/-- One channel below full brightness: `(ch * br) >> 8` (R72). -/
def scaleChannel (ch br : Byte) : Byte := low8 (shr (channelInt ch * channelInt br) 8)

/-- `scale_fn(color, br)`: the identity at 255, else each channel scaled on its own (R70, R71). -/
def scaleColor (color : Color) (br : Byte) : Color :=
  if br = 255 then color
  else packChannels (scaleChannel (redOf color) br) (scaleChannel (greenOf color) br) (scaleChannel (blueOf color) br)

/-- SCALE (R70). -/
def execScale (color : Color) (brightness : Byte) (s : State) : Result :=
  .next (respond .ok (.color (scaleColor color brightness)) s)

end Sys2Proof.Machine
end

