-- ==== Sys2Proof/Machine/FrameBuilder.lean ====
section
/-! DEFINITION. The FrameBuilder commands BUILD_FRAME and BUILD_CLEAR (42_frame_builder.md R76 to R81). -/

namespace Sys2Proof.Machine

/-- The byte at index `j` of a uniform frame: green, red, blue within each pixel slot (R29, R77, R78). -/
def slotByte (color : Color) (j : Nat) : Byte :=
  match j % 3 with
  | 0 => greenOf color
  | 1 => redOf color
  | _ => blueOf color

/-- `frame_fn(color)`: the same three bytes in every pixel slot (R76). -/
def buildUniformFrame (color : Color) : Frame := Vector.ofFn fun j => slotByte color j.val

/-- `zero_frame`: twelve zero bytes (R79). -/
def buildClearFrame : Frame := Vector.replicate frameBytes 0

/-- BUILD_FRAME (R76). -/
def execBuildFrame (color : Color) (s : State) : Result :=
  .next (respond .ok (.frame (buildUniformFrame color)) s)

/-- BUILD_CLEAR (R79). -/
def execBuildClear (s : State) : Result := .next (respond .ok (.frame buildClearFrame) s)

end Sys2Proof.Machine
end

