-- ==== Sys2Proof/Machine/StripController.lean ====
section
/-! DEFINITION. The StripController commands SET_BRIGHTNESS, GET_BRIGHTNESS, SHOW_COLOR and CLEAR
(43_strip_controller.md R82 to R90): the only commands that touch BR or the transmitter. -/

namespace Sys2Proof.Machine

/-- The frame SHOW_COLOR hands off at brightness `br` (R85, R86). -/
def showFrame (color : Color) (br : Byte) : Frame :=
  buildUniformFrame (if br < 255 then scaleColor color br else color)

/-- SET_BRIGHTNESS: `BR <- value & 0xFF` (R82). -/
def execSetBrightness (value : Int) (s : State) : Result :=
  .next (respond .ok .none (writeBr (low8 value) s))

/-- GET_BRIGHTNESS (R84). -/
def execGetBrightness (s : State) : Result := .next (respond .ok (.brightness (readBr s)) s)

/-- SHOW_COLOR: BR is read once, at the start (R85, R86). -/
def execShowColor (color : Color) (s : State) : Result := .next (transmit (showFrame color (readBr s)) s)

/-- CLEAR: BR is not read (R89). -/
def execClear (s : State) : Result := .next (transmit buildClearFrame s)

/-- The frame a command hands off at brightness `br`; absent for the commands that make no hand-off (R24). -/
def handOffFrame (i : Instr) (br : Byte) : Option Frame :=
  match i with
  | .pack _ _ _ => none
  | .unpack _ => none
  | .fromHsl _ _ _ => none
  | .scale _ _ => none
  | .buildFrame _ => none
  | .buildClear => none
  | .setBrightness _ => none
  | .getBrightness => none
  | .showColor color => some (showFrame color br)
  | .clear => some buildClearFrame

end Sys2Proof.Machine
end

