-- ==== Sys2Proof/Machine/Dispatch.lean ====
section
/-! DEFINITION. The meaning of each command of the opcode map (30_encoding.md R43), one arm each. -/

namespace Sys2Proof.Machine

-- The core performs one accepted command (R34).
def exec (i : Instr) (s : State) : Host.Outcome State Fault Refusal :=
  match i with
  | .pack red green blue => Sys2Proof.Machine.execPack red green blue s
  | .unpack color => Sys2Proof.Machine.execUnpack color s
  | .fromHsl hue saturation luminosity => Sys2Proof.Machine.execFromHsl hue saturation luminosity s
  | .scale color brightness => Sys2Proof.Machine.execScale color brightness s
  | .buildFrame color => Sys2Proof.Machine.execBuildFrame color s
  | .buildClear => Sys2Proof.Machine.execBuildClear s
  | .setBrightness value => Sys2Proof.Machine.execSetBrightness value s
  | .getBrightness => Sys2Proof.Machine.execGetBrightness s
  | .showColor color => Sys2Proof.Machine.execShowColor color s
  | .clear => Sys2Proof.Machine.execClear s

end Sys2Proof.Machine
end

