-- ==== Sys2Proof/WellFormed.lean ====
section
/-! DEFINITION. Which terms of `Instr` are commands that the port can carry: every signed32 operand lies in the
32-bit two's-complement range (00_scope.md R10 and section 4). Colors and brightness operands fit by type. -/

namespace Sys2Proof

/-- The range of a signed 32-bit value (00_scope.md section 4). -/
def inSigned32 (v : Int) : Bool := decide (-2147483648 ≤ v) && decide (v ≤ 2147483647)

/-- A command that the three operand ports can carry (R10, R44). -/
def wellFormed : Instr → Bool
  | .pack red green blue => inSigned32 red && inSigned32 green && inSigned32 blue
  | .unpack _ => true
  | .fromHsl hue saturation luminosity => inSigned32 hue && inSigned32 saturation && inSigned32 luminosity
  | .scale _ _ => true
  | .buildFrame _ => true
  | .buildClear => true
  | .setBrightness value => inSigned32 value
  | .getBrightness => true
  | .showColor _ => true
  | .clear => true

end Sys2Proof
end

