-- ==== Sys2Proof/Decode.lean ====
section
/-! DEFINITION. The command word and its decoding (30_encoding.md R42 to R45), then the encoder written from the same
table, then the host's view of a table row's word. -/

namespace Sys2Proof

/-- The format CMD: OP in bits 99 to 96, OPA in 95 to 64, OPB in 63 to 32, OPC in 31 to 0 (R42). -/
def commandWord (op : Opcode) (opa opb opc : Word) : CommandWord := op ++ opa ++ opb ++ opc

/-- OP, bits 99 to 96 (R42). -/
def opField (w : CommandWord) : Opcode := w.extractLsb' 96 4

/-- OPA, bits 95 to 64 (R42). -/
def opaField (w : CommandWord) : Word := w.extractLsb' 64 32

/-- OPB, bits 63 to 32 (R42). -/
def opbField (w : CommandWord) : Word := w.extractLsb' 32 32

/-- OPC, bits 31 to 0 (R42). -/
def opcField (w : CommandWord) : Word := w.extractLsb' 0 32

/-- A signed32 operand: the whole field as a two's-complement integer (R44). -/
def signed32 (field : Word) : Int := field.toInt

/-- A color operand: bits 23 to 0 of the field, the others have no effect (R33, R44). DESIGN CHOICE (log entry 13,
unsafe if hardware reads them). -/
def colorOperand (field : Word) : Color := field.extractLsb' 0 24

/-- A brightness operand: bits 7 to 0 of the field; the others have no effect (R33, R44). -/
def brightnessOperand (field : Word) : Byte := field.extractLsb' 0 8

/-- The opcode of each mnemonic (R43). -/
def Mnemonic.opcode : Mnemonic → Opcode
  | .pack => 0x1
  | .unpack => 0x2
  | .fromHsl => 0x3
  | .scale => 0x4
  | .buildFrame => 0x5
  | .buildClear => 0x6
  | .setBrightness => 0x7
  | .getBrightness => 0x8
  | .showColor => 0x9
  | .clear => 0xA

/-- The mnemonic of each opcode (R43). The opcodes left over, 0x0 and 0xB to 0xF, are unassigned (R45). -/
def Mnemonic.ofOpcode (op : Opcode) : Option Mnemonic :=
  match op with
  | 0x1#4 => some .pack
  | 0x2#4 => some .unpack
  | 0x3#4 => some .fromHsl
  | 0x4#4 => some .scale
  | 0x5#4 => some .buildFrame
  | 0x6#4 => some .buildClear
  | 0x7#4 => some .setBrightness
  | 0x8#4 => some .getBrightness
  | 0x9#4 => some .showColor
  | 0xA#4 => some .clear
  | _ => none

/-- The command of a mnemonic with its operands read from the three fields as R44 says. -/
def readOperands (m : Mnemonic) (opa opb opc : Word) : Instr :=
  match m with
  | .pack => .pack (signed32 opa) (signed32 opb) (signed32 opc)
  | .unpack => .unpack (colorOperand opa)
  | .fromHsl => .fromHsl (signed32 opa) (signed32 opb) (signed32 opc)
  | .scale => .scale (colorOperand opa) (brightnessOperand opb)
  | .buildFrame => .buildFrame (colorOperand opa)
  | .buildClear => .buildClear
  | .setBrightness => .setBrightness (signed32 opa)
  | .getBrightness => .getBrightness
  | .showColor => .showColor (colorOperand opa)
  | .clear => .clear

/-- What the decoder answers: a command, or the name of its one rejection. -/
inductive Decoded where
  | instr (i : Instr)
  /-- The opcode is unassigned (R45). -/
  | unassigned (op : Opcode)
deriving DecidableEq, Repr

/-- The decoder: it selects the command from OP alone (R42) and is total on the 2^100 command words. -/
def decode (w : CommandWord) : Decoded :=
  match Mnemonic.ofOpcode (opField w) with
  | some m => .instr (readOperands m (opaField w) (opbField w) (opcField w))
  | none => .unassigned (opField w)

/-- The 32-bit two's-complement pattern of a signed32 operand (R46). -/
def signedField (v : Int) : Word := BitVec.ofInt 32 v

/-- A color operand in its field, zero above bit 23 (R44). -/
def colorField (c : Color) : Word := c.setWidth 32

/-- A brightness operand in its field, zero above bit 7 (R44). -/
def brightnessField (b : Byte) : Word := b.setWidth 32

/-- The encoder: the opcode of R43, the operands where R44 reads them, and 0 in every ignored field (R46). The 0 in
OPA[31:24] of a color operand and in OPB[31:8] of a brightness operand is a DESIGN CHOICE (log entry 13). -/
def encode : Instr → CommandWord
  | .pack red green blue => commandWord 0x1 (signedField red) (signedField green) (signedField blue)
  | .unpack color => commandWord 0x2 (colorField color) 0 0
  | .fromHsl hue saturation luminosity =>
      commandWord 0x3 (signedField hue) (signedField saturation) (signedField luminosity)
  | .scale color brightness => commandWord 0x4 (colorField color) (brightnessField brightness) 0
  | .buildFrame color => commandWord 0x5 (colorField color) 0 0
  | .buildClear => commandWord 0x6 0 0 0
  | .setBrightness value => commandWord 0x7 (signedField value) 0 0
  | .getBrightness => commandWord 0x8 0 0 0
  | .showColor color => commandWord 0x9 (colorField color) 0 0
  | .clear => commandWord 0xA 0 0 0

/-- The bits of the command word that a command reads, OP among them (R44). -/
def Mnemonic.readMask : Mnemonic → CommandWord
  | .pack => commandWord 0xF 0xFFFFFFFF 0xFFFFFFFF 0xFFFFFFFF
  | .unpack => commandWord 0xF 0x00FFFFFF 0 0
  | .fromHsl => commandWord 0xF 0xFFFFFFFF 0xFFFFFFFF 0xFFFFFFFF
  | .scale => commandWord 0xF 0x00FFFFFF 0x000000FF 0
  | .buildFrame => commandWord 0xF 0x00FFFFFF 0 0
  | .buildClear => commandWord 0xF 0 0 0
  | .setBrightness => commandWord 0xF 0xFFFFFFFF 0 0
  | .getBrightness => commandWord 0xF 0 0 0
  | .showColor => commandWord 0xF 0x00FFFFFF 0 0
  | .clear => commandWord 0xF 0 0 0

/-- The command word of a number whose bits are counted as spec/opcode_table.json counts them: OP, the first word, is
bits 3 to 0 (the table's match and mask), and OPA, OPB and OPC count on from it at bits 4, 36 and 68. Bits from `nbits`
on are 0. DESIGN CHOICE (log entry 11, safe): the spec has no memory in which a command is laid out. -/
def tableWord (nbits w : Nat) : CommandWord :=
  let v := w % 2 ^ nbits
  commandWord (BitVec.ofNat 4 v) (BitVec.ofNat 32 (v / 2 ^ 4)) (BitVec.ofNat 32 (v / 2 ^ 36))
    (BitVec.ofNat 32 (v / 2 ^ 68))

/-- What the decoder reads from a table row's word; none where the opcode is unassigned. -/
def decodeTableWord (nbits w : Nat) : Option Instr :=
  match decode (tableWord nbits w) with
  | .instr i => some i
  | .unassigned _ => none

end Sys2Proof
end

