-- ==== Sys2Proof/Machine/Port.lean ====
section
/-! DEFINITION. What the core does with the next event at its command port: it accepts a command when it is ready
(10_state.md R21), waits, is reset (70_reset_and_hazards.md R109 to R112), or stops where the spec tells a model to stop
(30_encoding.md R45, 70_reset_and_hazards.md R114). -/

namespace Sys2Proof.Machine

/-- What becomes of the next event: it is settled at the port, or a command is to be performed. -/
inductive Accepted where
  | settled (r : Result)
  | perform (i : Instr) (s : State)

/-- The state with the next event taken from the port. -/
def takeEvent (s : State) : State := { s with host := s.host.tail }

/-- A reset while the core is idle, or while it waits for the transmitter, which abandons the hand-off in progress
(R109, R112). -/
def resetNow (extent : HandOffExtent) (s : State) : State :=
  match s.inFlight with
  | none => resetCore s
  | some h => resetCore { s with handOffs := s.handOffs ++ abandonedHandOff h.frame extent }

/-- A reset that arrives while a command is performed: no response, BR is 128, and the command's hand-off, if it makes
one, is in any of the three conditions of R112 (U6). -/
def abandon (i : Instr) (extent : HandOffExtent) (s : State) : State :=
  match handOffFrame i s.br with
  | none => resetCore s
  | some frame => resetCore { s with handOffs := s.handOffs ++ abandonedHandOff frame extent }

/-- The stop on an unassigned opcode (R45, U1). -/
def rejectOpcode (op : Opcode) : Result := .fault (.illegalOpcode op illegalResponse)

/-- The next event at the port. With no event the core is idle and holds BR (R108, R111). While it waits for a
transmitter that does not return it accepts no further command (R96 case 3, U5), so the state stays as it is. DEDUCED
(log entries 5, 7, 8 and 12, safe). -/
def accept (s : State) : Accepted :=
  match s.host with
  | [] => .settled (.next s)
  | .issue w :: _ =>
    match s.inFlight with
    | some _ => .settled (.next s)
    | none =>
      match decode w with
      | .instr i => .perform i (takeEvent s)
      | .unassigned op => .settled (rejectOpcode op)
  | .overlap _ :: _ => .settled (.refused .overlappedCommand)
  | .reset extent :: _ => .settled (.next (resetNow extent (takeEvent s)))
  | .resetDuring w extent :: _ =>
    match s.inFlight with
    | some _ => .settled (.next s)
    | none =>
      match decode w with
      | .instr i => .settled (.next (abandon i extent (takeEvent s)))
      | .unassigned op => .settled (rejectOpcode op)

/-- The state whose next event is the issue of a command to a ready core. -/
def presentCommand (w : CommandWord) (s : State) : State :=
  { s with inFlight := none, host := .issue w :: s.host }

end Sys2Proof.Machine
end

