-- ==== Sys2Proof/Machine/Step.lean ====
section
/-! DEFINITION. One step: the next event at the command port, and if it is a command, that command as one atomic
transaction (20_memory.md R34, R37). -/

namespace Sys2Proof.Machine

/-- One step of the core. -/
def step (s : State) : Host.Outcome State Fault Refusal :=
  match accept s with
  | .settled r => r
  | .perform i t => exec i t

/-- The host presents a table row's word to a ready core as its next command. The core fetches nothing
(R15), so the place where step finds its next instruction is the head of the port's input. DESIGN CHOICE (log entry 11,
safe). -/
def State.withFetchWord (s : State) (nbits w : Nat) : State := presentCommand (tableWord nbits w) s

end Sys2Proof.Machine
end

