-- ==== Sys2Proof/Machine/Assembler.lean ====
section
/-! DEFINITION. The textual form of commands (30_encoding.md R46, R47; D21): notation only, the machine does not use
it. Text is a list of characters. -/

namespace Sys2Proof.Machine

/-- Every mnemonic, in opcode order (R43). -/
def allMnemonics : List Mnemonic :=
  [.pack, .unpack, .fromHsl, .scale, .buildFrame, .buildClear, .setBrightness, .getBrightness, .showColor, .clear]

/-- The mnemonic as R43 writes it, in capitals. -/
def mnemonicText : Mnemonic → List Char
  | .pack => "PACK".toList
  | .unpack => "UNPACK".toList
  | .fromHsl => "FROM_HSL".toList
  | .scale => "SCALE".toList
  | .buildFrame => "BUILD_FRAME".toList
  | .buildClear => "BUILD_CLEAR".toList
  | .setBrightness => "SET_BRIGHTNESS".toList
  | .getBrightness => "GET_BRIGHTNESS".toList
  | .showColor => "SHOW_COLOR".toList
  | .clear => "CLEAR".toList

/-- How many operands a command is written with: the number of its fields that are not ignored (R46). -/
def operandCount : Mnemonic → Nat
  | .pack => 3
  | .unpack => 1
  | .fromHsl => 3
  | .scale => 2
  | .buildFrame => 1
  | .buildClear => 0
  | .setBrightness => 1
  | .getBrightness => 0
  | .showColor => 1
  | .clear => 0

/-- Operands fill OPA, OPB and OPC in order, and every other field is 0; a wrong number of operands is refused
(R46). -/
def assembleFields (m : Mnemonic) (operands : List Word) : Option CommandWord :=
  if operands.length = operandCount m then
    some (commandWord m.opcode (operands.getD 0 0) (operands.getD 1 0) (operands.getD 2 0))
  else none

/-- A decimal digit's value. -/
def decimalDigit (c : Char) : Option Nat :=
  if '0' ≤ c ∧ c ≤ '9' then some (c.toNat - '0'.toNat) else none

/-- A hexadecimal digit's value; both letter cases are read. DESIGN CHOICE (log entry 14, safe). -/
def hexDigit (c : Char) : Option Nat :=
  if 'A' ≤ c ∧ c ≤ 'F' then some (c.toNat - 'A'.toNat + 10)
  else if 'a' ≤ c ∧ c ≤ 'f' then some (c.toNat - 'a'.toNat + 10)
  else decimalDigit c

/-- The number that digits write in a base, given what stands to their left. -/
def readDigits (digit : Char → Option Nat) (base : Nat) : Nat → List Char → Option Nat
  | acc, [] => some acc
  | acc, c :: rest =>
    match digit c with
    | some d => readDigits digit base (acc * base + d) rest
    | none => none

/-- A number of at least one digit. -/
def readNumber (digit : Char → Option Nat) (base : Nat) (text : List Char) : Option Nat :=
  if text = [] then none else readDigits digit base 0 text

/-- A decimal operand as its 32-bit two's-complement pattern, if it lies in the signed32 range (R46). -/
def decimalField (v : Int) : Option Word := if inSigned32 v then some (signedField v) else none

/-- One operand: a decimal number with or without a minus sign, or 0x and a hexadecimal number in 0 to 0xFFFFFFFF
(R46). Any other text, a fractional number among them, is refused (U8). -/
def readOperand (text : List Char) : Option Word :=
  match text with
  | '0' :: 'x' :: digits =>
    (readNumber hexDigit 16 digits).bind fun v => if v < 2 ^ 32 then some (BitVec.ofNat 32 v) else none
  | '-' :: digits => (readNumber decimalDigit 10 digits).bind fun v => decimalField (-(v : Int))
  | digits => (readNumber decimalDigit 10 digits).bind fun v => decimalField v

/-- The text without the blanks at its start. -/
def skipBlanks (text : List Char) : List Char := text.dropWhile (· = ' ')

/-- The text without the blanks at either end. DESIGN CHOICE (log entry 14, safe). -/
def trimBlanks (text : List Char) : List Char := (skipBlanks (skipBlanks text).reverse).reverse

/-- The pieces between commas; the last argument is the piece being read, reversed. -/
def splitCommas : List Char → List Char → List (List Char)
  | [], piece => [piece.reverse]
  | c :: rest, piece => if c = ',' then piece.reverse :: splitCommas rest [] else splitCommas rest (c :: piece)

/-- Every operand of a list, or nothing if one of them is refused. -/
def readOperandList : List (List Char) → Option (List Word)
  | [] => some []
  | piece :: rest =>
    match readOperand (trimBlanks piece), readOperandList rest with
    | some v, some vs => some (v :: vs)
    | _, _ => none

/-- `MNEMONIC [ operand , operand ... ]` (R46): the command word, or nothing if the text is not a command. -/
def assemble (text : List Char) : Option CommandWord :=
  let line := trimBlanks text
  let name := line.takeWhile (· ≠ ' ')
  let rest := skipBlanks (line.dropWhile (· ≠ ' '))
  (allMnemonics.find? fun m => mnemonicText m = name).bind fun m =>
    (readOperandList (if rest = [] then [] else splitCommas rest [])).bind fun operands => assembleFields m operands

/-- A hexadecimal digit, in capitals. -/
def hexChar (d : Nat) : Char := if d < 10 then Char.ofNat ('0'.toNat + d) else Char.ofNat ('A'.toNat + (d - 10))

/-- The last `k` hexadecimal digits of a number, the highest first. -/
def hexText : Nat → Nat → List Char
  | 0, _ => []
  | k + 1, v => hexText k (v / 16) ++ [hexChar (v % 16)]

/-- An encoded command written `OP:OPA:OPB:OPC` in hexadecimal (R46). -/
def listingText (w : CommandWord) : List Char :=
  hexText 1 (opField w).toNat ++ ':' :: hexText 8 (opaField w).toNat ++ ':' :: hexText 8 (opbField w).toNat
    ++ ':' :: hexText 8 (opcField w).toNat

end Sys2Proof.Machine
end

