-- ==== Sys2Proof/Safety.lean ====
section
/-! DEFINITION. What claims say of a run: the core is ready, a run has ended, the events that stop nothing, and the
invariant that every step keeps. -/

namespace Sys2Proof

open Sys2Proof.Machine

/-- The core is idle and ready for a command (70_reset_and_hazards.md R111, 60_exceptions.md R101). -/
def Ready (s : State) : Prop := s.inFlight = none

/-- The run has ended: every event has been taken from the port and no hand-off is awaited. In a run without resets that
is when the last command's response has returned (R120). DESIGN CHOICE (log entry 19, unsafe): R120 says nothing of a
reset inside a run, and here a run whose last command a reset abandoned has ended too, though that command has no
response. -/
def RunEnded (s : State) : Prop := s.host = [] ∧ s.inFlight = none

/-- The opcodes of R43, as a test on the OP field. -/
def assignedOpcode (op : Opcode) : Bool := decide (0x1 ≤ op.toNat) && decide (op.toNat ≤ 0xA)

/-- An outcome with which the transmitter returns (R96 cases 1 and 2). -/
def TxOutcome.returns : TxOutcome → Bool
  | .ok => true
  | .fail _ => true
  | .noReturn => false

/-- All four pixel slots of a frame hold the bytes of slot 0 (R78). -/
def uniformFrame (f : Frame) : Bool := f.toList == (List.replicate pixelCount (f.toList.take 3)).flatten

/-- A response that the status table R23 and the payload table R22 allow: OK never carries a failure report, TX_FAIL
carries one and nothing else. ILLEGAL is a fault in this model and is never recorded. -/
def legalResponse : Response → Bool
  | ⟨.ok, .info _⟩ => false
  | ⟨.ok, _⟩ => true
  | ⟨.txFail, .info _⟩ => true
  | ⟨.txFail, _⟩ => false
  | ⟨.illegal, _⟩ => false

/-- A hand-off that the core can make: a uniform frame with the configured PIN (R24, R26, R78). -/
def legalHandOff (h : HandOff) : Prop := h.pin = Config.pin ∧ uniformFrame h.frame = true

/-- The invariant: every recorded response and hand-off is a legal one, and a hand-off in progress is a whole one. -/
structure CoreInv (s : State) : Prop where
  responses : ∀ r ∈ s.responses, legalResponse r = true
  handOffs : ∀ h ∈ s.handOffs, legalHandOff h
  inFlight : ∀ h, s.inFlight = some h → legalHandOff h ∧ h.cutAt = none

/-- BR after one command word, from the opcode map and R17 alone: SET_BRIGHTNESS writes OPA's low byte, and no other
command writes BR. -/
def brAfterWord (br : Byte) (w : CommandWord) : Byte :=
  if opField w = 0x7 then (opaField w).extractLsb' 0 8 else br

/-- `k` steps of the core (Host/Core.lean). -/
abbrev runSteps (k : Nat) (s : State) : Result := core.run k s

end Sys2Proof
end

