-- ==== Sys2Proof/Certificates/Slice0/Obligations.lean ====
section
/-! DEFINITION. The statements for the provers, and the few words they are written in. Numbers on the right of a
statement are written out from the spec's formulas, not from the model's definitions, wherever the rule gives a
formula. -/

namespace Sys2Proof

open Sys2Proof.Machine

/-- The red channel of a Color as a number (R28). -/
def redNat (c : Color) : Nat := c.toNat / 65536

/-- The green channel of a Color as a number (R28). -/
def greenNat (c : Color) : Nat := c.toNat / 256 % 256

/-- The blue channel of a Color as a number (R28). -/
def blueNat (c : Color) : Nat := c.toNat % 256

/-- One channel after scaling, as a number (R71, R72). -/
def scaledNat (ch br : Nat) : Nat := if br = 255 then ch else ch * br / 256

/-- A frame of twelve bytes that holds green, red, blue, as numbers, in each of its four slots (R29, R76). -/
def SlotsHold (f : Frame) (g r b : Nat) : Prop :=
  f.toList.length = 12 ∧
    ∀ i < 4, f.toList[3 * i]?.map BitVec.toNat = some g ∧ f.toList[3 * i + 1]?.map BitVec.toNat = some r ∧
      f.toList[3 * i + 2]?.map BitVec.toNat = some b

/-- FROM_HSL's color as a number: R50's ten steps written out on integers. -/
def hslNumber (h0 s0 l0 : Int) : Int :=
  let h := h0 % 360
  let s := max 0 (min 99 s0)
  let l := max 0 (min 99 l0)
  let c := ((100 - |2 * l - 100|) * s * 256) / 10000
  let h1 := h / 60
  let h2 := ((h - h1 * 60) * 256) / 60
  let temp := |h1 % 2 * 256 + h2 - 256|
  let x := c * (256 - temp) / 256
  let m := ((512 * l).tdiv 100 - c).tdiv 2
  let red := if h1 = 0 ∨ h1 = 5 then c else if h1 = 1 ∨ h1 = 4 then x else 0
  let green := if h1 = 1 ∨ h1 = 2 then c else if h1 = 0 ∨ h1 = 3 then x else 0
  let blue := if h1 = 3 ∨ h1 = 4 then c else if h1 = 2 ∨ h1 = 5 then x else 0
  (red + m) % 256 * 65536 + (green + m) % 256 * 256 + (blue + m) % 256

/-- `t` is `s` after one hand-off of the frame `f` with PIN that the transmitter ends with the outcome `o`, a success
or a failure (R85, R88): `o` is the first answer the start state fixes, else the free value (log entry 4). The third
way, no return, is the statement NoReturnStaysBusy's. -/
def HandsOff (f : Frame) (s t : State) : Prop :=
  ∃ o s', ((∃ rest, s.txAnswers = o :: rest ∧ s' = { s with txAnswers := rest }) ∨
      (s.txAnswers = [] ∧ o = Config.txOutcome s.txDraws ∧ s' = { s with txDraws := s.txDraws + 1 })) ∧
    (o = .ok → t = { s' with
      handOffs := s.handOffs ++ [⟨f, Config.pin, none⟩], responses := s.responses ++ [⟨.ok, .none⟩] }) ∧
    (∀ info, o = .fail info → t = { s' with
      handOffs := s.handOffs ++ [⟨f, Config.pin, none⟩], responses := s.responses ++ [⟨.txFail, .info info⟩] })

/-- Each mnemonic as R43 writes it. -/
def writtenName : Mnemonic → String
  | .pack => "PACK"
  | .unpack => "UNPACK"
  | .fromHsl => "FROM_HSL"
  | .scale => "SCALE"
  | .buildFrame => "BUILD_FRAME"
  | .buildClear => "BUILD_CLEAR"
  | .setBrightness => "SET_BRIGHTNESS"
  | .getBrightness => "GET_BRIGHTNESS"
  | .showColor => "SHOW_COLOR"
  | .clear => "CLEAR"

/-- How many operands R46 says each mnemonic takes. -/
def writtenCount : Mnemonic → Nat
  | .pack | .fromHsl => 3
  | .scale => 2
  | .unpack | .buildFrame | .setBrightness | .showColor => 1
  | .buildClear | .getBrightness | .clear => 0

/-- Digits, each with its value. -/
abbrev Digits := List (Char × Nat)

/-- The decimal digits with their values. -/
def decimalDigits : Digits :=
  [('0', 0), ('1', 1), ('2', 2), ('3', 3), ('4', 4), ('5', 5), ('6', 6), ('7', 7), ('8', 8), ('9', 9)]

/-- The hexadecimal digits with their values. That both letter cases are read is the model's choice (log entry 14). -/
def hexDigits : Digits :=
  decimalDigits ++ [('A', 10), ('B', 11), ('C', 12), ('D', 13), ('E', 14), ('F', 15)] ++
    [('a', 10), ('b', 11), ('c', 12), ('d', 13), ('e', 14), ('f', 15)]

/-- The number that digits with their values write in a base, the highest digit first. -/
def numberIn (base : Nat) (digits : Digits) : Nat := digits.foldl (fun n d => n * base + d.2) 0

/-- R46's operand: the text is written in decimal, with or without a minus sign, and `v` is its two's-complement
pattern; or it is 0x and hexadecimal digits, and `v` is the pattern itself. -/
def WritesOperand (text : List Char) (v : Word) : Prop :=
  (∃ ds : Digits, ds ≠ [] ∧ (∀ d ∈ ds, d ∈ decimalDigits) ∧ text = ds.map Prod.fst ∧ v.toInt = numberIn 10 ds) ∨
  (∃ ds : Digits, ds ≠ [] ∧ (∀ d ∈ ds, d ∈ decimalDigits) ∧ text = '-' :: ds.map Prod.fst ∧
    v.toInt = -(numberIn 10 ds : Int)) ∨
  (∃ ds : Digits, ds ≠ [] ∧ (∀ d ∈ ds, d ∈ hexDigits) ∧ text = '0' :: 'x' :: ds.map Prod.fst ∧
    v.toNat = numberIn 16 ds)

/-- A command in R46's syntax: the mnemonic, then its operands with a comma between them. Where the blanks stand, one
after the mnemonic and any number after a comma, is the model's choice (log entry 14). -/
def commandText (blanks : Nat) (m : Mnemonic) (operands : List (List Char)) : List Char :=
  match operands with
  | [] => (writtenName m).toList
  | _ :: _ => (writtenName m).toList ++ ' ' :: List.intercalate (',' :: List.replicate blanks ' ') operands

/-- SHOW_COLOR and CLEAR, the commands that make a hand-off (R24). -/
def handsOffFrame (m : Mnemonic) : Bool := m == .showColor || m == .clear

end Sys2Proof

open Sys2Proof Sys2Proof.Machine

/-! ### Encoding -/

/-- Every well-formed command is what its own encoding decodes to (30_encoding.md R42 to R44, R46). -/
def Obligations.DecodeOfEncodeIsTheCommand : Prop :=
  ∀ i : Instr, wellFormed i = true → decode (encode i) = .instr i

/-- Every command word that decodes gives a well-formed command, whose encoding is that word with the bits the command
does not read set to 0 (R43, R44). That a whole ignored field is set to 0 is R46; that OPA's bits 31 to 24 of a color
operand and OPB's bits 31 to 8 of a brightness operand are set to 0 is the model's choice (log entry 13, DESIGN
CHOICE). -/
def Obligations.EncodeOfDecodeKeepsReadBits : Prop :=
  ∀ (w : CommandWord) (i : Instr), decode w = .instr i →
    wellFormed i = true ∧ encode i = w &&& i.mnemonic.readMask

/-- R42: the four fields make up the 100 bits, each at its place, and the command is selected by OP alone. -/
def Obligations.CommandWordLayout : Prop :=
  (∀ (op : Opcode) (a b c : Word),
    (commandWord op a b c).toNat = op.toNat * 2 ^ 96 + a.toNat * 2 ^ 64 + b.toNat * 2 ^ 32 + c.toNat) ∧
  (∀ w : CommandWord, commandWord (opField w) (opaField w) (opbField w) (opcField w) = w) ∧
  (∀ (w w' : CommandWord) (i : Instr), opField w = opField w' → decode w = .instr i →
    ∃ i', decode w' = .instr i' ∧ i'.mnemonic = i.mnemonic)

/-- R43 and the first sentence of R45: which opcode selects which command, and which opcodes select none. -/
def Obligations.OpcodeMapAsTabled : Prop :=
  ∀ w : CommandWord,
    (∀ m : Mnemonic, (∃ i, decode w = .instr i ∧ i.mnemonic = m) ↔
      (opField w).toNat = match m with
        | .pack => 1 | .unpack => 2 | .fromHsl => 3 | .scale => 4 | .buildFrame => 5 | .buildClear => 6
        | .setBrightness => 7 | .getBrightness => 8 | .showColor => 9 | .clear => 10) ∧
    ((∃ op, decode w = .unassigned op) ↔ (opField w).toNat = 0 ∨ 11 ≤ (opField w).toNat)

/-- R44: how each command reads its operand fields. An ignored field is a variable that the command does not
mention. -/
def Obligations.OperandFieldsAsTabled : Prop :=
  ∀ a b c : Word,
    decode (commandWord 0x1 a b c) = .instr (.pack a.toInt b.toInt c.toInt) ∧
    decode (commandWord 0x2 a b c) = .instr (.unpack (BitVec.ofNat 24 (a.toNat % 2 ^ 24))) ∧
    decode (commandWord 0x3 a b c) = .instr (.fromHsl a.toInt b.toInt c.toInt) ∧
    decode (commandWord 0x4 a b c) =
      .instr (.scale (BitVec.ofNat 24 (a.toNat % 2 ^ 24)) (BitVec.ofNat 8 (b.toNat % 2 ^ 8))) ∧
    decode (commandWord 0x5 a b c) = .instr (.buildFrame (BitVec.ofNat 24 (a.toNat % 2 ^ 24))) ∧
    decode (commandWord 0x6 a b c) = .instr .buildClear ∧
    decode (commandWord 0x7 a b c) = .instr (.setBrightness a.toInt) ∧
    decode (commandWord 0x8 a b c) = .instr .getBrightness ∧
    decode (commandWord 0x9 a b c) = .instr (.showColor (BitVec.ofNat 24 (a.toNat % 2 ^ 24))) ∧
    decode (commandWord 0xA a b c) = .instr .clear

/-- Encoded commands that 95_test_vectors.md writes out decode to the commands it names beside them, and the two
unassigned words to their rejection. -/
def Obligations.ListedWordsDecode : Prop :=
  decode 0x0_00000000_00000000_00000000 = .unassigned 0x0 ∧
  decode 0x1_0000000A_00000014_0000001E = .instr (.pack 10 20 30) ∧
  decode 0x1_7FFFFFFF_80000000_00001234 = .instr (.pack 2147483647 (-2147483648) 4660) ∧
  decode 0x3_FFFFFFF6_00000063_00000032 = .instr (.fromHsl (-10) 99 50) ∧
  decode 0x4_0000FFFF_00000080_00000000 = .instr (.scale 0x00FFFF 128) ∧
  decode 0x5_00007F7F_00000000_00000000 = .instr (.buildFrame 0x007F7F) ∧
  decode 0x7_0000012C_00000000_00000000 = .instr (.setBrightness 300) ∧
  decode 0x8_00000000_00000000_00000000 = .instr .getBrightness ∧
  decode 0x9_000A141E_00000000_00000000 = .instr (.showColor 0x0A141E) ∧
  decode 0xA_00000000_00000000_00000000 = .instr .clear ∧
  decode 0xF_00000000_00000000_00000000 = .unassigned 0xF

/-- R46, the counts and the spelling written out from the rule: a command text with as many operands as R46 gives its
mnemonic assembles to the word that decodes to that mnemonic with the operands in OPA, OPB and OPC in order and 0 in the
ignored fields; with another number of operands, or with a text among them that is no operand of R46, it is refused.
Clauses 1 and 2 say this of the operands' patterns, clauses 3 and 4 of the text, clause 5 of a hexadecimal operand of
eight digits. Blanks are the model's choice (log entry 14). -/
def Obligations.AssembledCommandDecodes : Prop :=
  (∀ (m : Mnemonic) (ops : List Word), ops.length = writtenCount m →
    ∃ w i, assembleFields m ops = some w ∧ decode w = .instr i ∧ i.mnemonic = m ∧
      (opaField w = ops.getD 0 0 ∧ opbField w = ops.getD 1 0 ∧ opcField w = ops.getD 2 0)) ∧
  (∀ (m : Mnemonic) (ops : List Word), ops.length ≠ writtenCount m → assembleFields m ops = none) ∧
  (∀ (blanks : Nat) (m : Mnemonic) (ops : List (List Char × Word)), (∀ p ∈ ops, WritesOperand p.1 p.2) →
    (ops.length = writtenCount m →
      ∃ w i, assemble (commandText blanks m (ops.map Prod.fst)) = some w ∧ decode w = .instr i ∧ i.mnemonic = m ∧
        (opaField w = (ops.map Prod.snd).getD 0 0 ∧ opbField w = (ops.map Prod.snd).getD 1 0 ∧
          opcField w = (ops.map Prod.snd).getD 2 0)) ∧
    (ops.length ≠ writtenCount m → assemble (commandText blanks m (ops.map Prod.fst)) = none)) ∧
  (∀ (blanks : Nat) (m : Mnemonic) (texts : List (List Char)), (∀ t ∈ texts, t ≠ [] ∧ ',' ∉ t ∧ ' ' ∉ t) →
    (∃ t ∈ texts, ∀ v, ¬ WritesOperand t v) → assemble (commandText blanks m texts) = none) ∧
  (∀ v : Word, readOperand ('0' :: 'x' :: hexText 8 v.toNat) = some v)

/-- R46: a text is read as the operand that the rule's grammar says it writes, and any other text is refused; so decimal
operands are those in [-2^31, 2^31-1] and hexadecimal ones those in [0, 0xFFFFFFFF]. Both letter cases are read by the
model's choice (log entry 14). -/
def Obligations.OperandTextReadsAsWritten : Prop :=
  (∀ (text : List Char) (v : Word), readOperand text = some v ↔ WritesOperand text v) ∧
  (∀ ds : Digits, ds ≠ [] → (∀ d ∈ ds, d ∈ decimalDigits) →
    ((∃ v, readOperand (ds.map Prod.fst) = some v) ↔ numberIn 10 ds ≤ 2147483647) ∧
    ((∃ v, readOperand ('-' :: ds.map Prod.fst) = some v) ↔ numberIn 10 ds ≤ 2147483648)) ∧
  (∀ ds : Digits, ds ≠ [] → (∀ d ∈ ds, d ∈ hexDigits) →
    ((∃ v, readOperand ('0' :: 'x' :: ds.map Prod.fst) = some v) ↔ numberIn 16 ds ≤ 0xFFFFFFFF))

/-! ### The step -/

/-- A ready core whose host issues a word that decodes performs that command, with the word taken from the port
(10_state.md R21, 20_memory.md R34). -/
def Obligations.StepPerformsDecodedCommand : Prop :=
  ∀ (s : State) (w : CommandWord) (rest : List HostEvent) (i : Instr),
    Ready s → s.host = .issue w :: rest → decode w = .instr i → step s = exec i { s with host := rest }

/-- The command word that the host presents for an opcode-table row is the one the next step performs (log entry 11). -/
def Obligations.PresentedTableWordRuns : Prop :=
  ∀ (s : State) (nbits w : Nat) (i : Instr), decodeTableWord nbits w = some i →
    step (s.withFetchWord nbits w) = exec i { s with inFlight := none }

/-- R45 and U1: issuing an unassigned opcode to a ready core is a fault. That the fault carries the response
(ILLEGAL, none) is the model's reading (log entry 6). -/
def Obligations.UnassignedOpcodeFaults : Prop :=
  ∀ (s : State) (w : CommandWord) (rest : List HostEvent), Ready s → s.host = .issue w :: rest →
    (opField w).toNat = 0 ∨ 11 ≤ (opField w).toNat →
    step s = .fault (.illegalOpcode (opField w) ⟨.illegal, .none⟩)

/-- The complete list of stops (R45, R94, R95, R114): a step faults only on an unassigned opcode given to a ready core,
and is refused only on a command issued before the previous response. Three clauses are the model's choices and not the
rules': that the fault carries the response (log entry 6); that the overlap event is refused whatever the core is doing
(log entry 7); and that a reset during an unassigned opcode is the fault of that opcode, where R112 would give no
response and BR 128 (log entry 8). -/
def Obligations.StepStopsOnlyAsListed : Prop :=
  ∀ s : State,
    (∀ f, step s = .fault f ↔ Ready s ∧ ∃ w rest, (s.host = .issue w :: rest ∨
        ∃ e, s.host = .resetDuring w e :: rest) ∧
      ((opField w).toNat = 0 ∨ 11 ≤ (opField w).toNat) ∧ f = .illegalOpcode (opField w) ⟨.illegal, .none⟩) ∧
    (∀ r, step s = .refused r ↔ (∃ w rest, s.host = .overlap w :: rest) ∧ r = .overlappedCommand)

/-! ### ColorCodec -/

/-- R48: PACK's encoding, its result for every three integers, and that nothing but the response record changes. -/
def Obligations.PackResult : Prop :=
  (∀ a b c : Word, decode (commandWord 0x1 a b c) = .instr (.pack a.toInt b.toInt c.toInt)) ∧
  ∀ (r g b : Int) (s : State), ∃ color : Color,
    exec (.pack r g b) s = .next { s with responses := s.responses ++ [⟨.ok, .color color⟩] } ∧
    (color.toNat : Int) = r % 256 * 65536 + g % 256 * 256 + b % 256

/-- R49: UNPACK's encoding, its result for every Color, and that nothing but the response record changes. -/
def Obligations.UnpackResult : Prop :=
  (∀ a b c : Word, decode (commandWord 0x2 a b c) = .instr (.unpack (BitVec.ofNat 24 (a.toNat % 2 ^ 24)))) ∧
  ∀ (color : Color) (s : State), ∃ ch : Channels,
    exec (.unpack color) s = .next { s with responses := s.responses ++ [⟨.ok, .channels ch⟩] } ∧
    ch.red.toNat = redNat color ∧ ch.green.toNat = greenNat color ∧ ch.blue.toNat = blueNat color

/-- R69, which the spec marks as derived: UNPACK of what PACK answered gives each input's low byte, and PACK of what
UNPACK answered gives the Color. -/
def Obligations.PackUnpackRoundTrip : Prop :=
  (∀ (r g b : Int) (s : State), ∃ (color : Color) (ch : Channels) (t : State),
    exec (.pack r g b) s = .next t ∧ t.responses = s.responses ++ [⟨.ok, .color color⟩] ∧
    exec (.unpack color) t = .next { t with responses := t.responses ++ [⟨.ok, .channels ch⟩] } ∧
    (ch.red.toNat : Int) = r % 256 ∧ (ch.green.toNat : Int) = g % 256 ∧ (ch.blue.toNat : Int) = b % 256) ∧
  (∀ (color : Color) (s : State), ∃ (ch : Channels) (t : State),
    exec (.unpack color) s = .next t ∧ t.responses = s.responses ++ [⟨.ok, .channels ch⟩] ∧
    exec (.pack ch.red.toNat ch.green.toNat ch.blue.toNat) t =
      .next { t with responses := t.responses ++ [⟨.ok, .color color⟩] })

/-- R50: FROM_HSL's encoding, its result for every three integers by the ten steps, and that nothing but the response
record changes. For a negative hue it rests on the spec's own decision D7 (log entry 17). -/
def Obligations.FromHslResult : Prop :=
  (∀ a b c : Word, decode (commandWord 0x3 a b c) = .instr (.fromHsl a.toInt b.toInt c.toInt)) ∧
  ∀ (h s l : Int) (st : State), ∃ color : Color,
    exec (.fromHsl h s l) st = .next { st with responses := st.responses ++ [⟨.ok, .color color⟩] } ∧
    (color.toNat : Int) = hslNumber h s l

/-- R67, which the spec marks as derived: FROM_HSL is periodic in hue, for negative hues too (D7, log entry 17). -/
def Obligations.FromHslPeriodicInHue : Prop :=
  ∀ (h s l k : Int) (st : State), exec (.fromHsl (h + 360 * k) s l) st = exec (.fromHsl h s l) st

/-- R53: saturation and luminosity act as if clamped to 0 to 99, so 100 acts as 99. -/
def Obligations.FromHslClampsPercents : Prop :=
  ∀ (h s l : Int) (st : State),
    exec (.fromHsl h s l) st = exec (.fromHsl h (max 0 (min 99 s)) (max 0 (min 99 l))) st ∧
    exec (.fromHsl h 100 l) st = exec (.fromHsl h 99 l) st ∧ exec (.fromHsl h s 100) st = exec (.fromHsl h s 99) st

/-- R62, which the spec marks as derived: the range of chroma, where it is 0, and its maximum. -/
def Obligations.ChromaRange : Prop :=
  chroma 99 50 = 253 ∧
  ∀ s l : Int, 0 ≤ s → s ≤ 99 → 0 ≤ l → l ≤ 99 →
    0 ≤ chroma s l ∧ chroma s l ≤ 253 ∧
    (chroma s l = 0 ↔ (100 - |2 * l - 100|) * s * 256 < 10000) ∧ (s = 0 ∨ l = 0 → chroma s l = 0)

/-- R63, which the spec marks as derived: the ranges of the sector, the sub-position and temp, and the sixty values of
the sub-position. -/
def Obligations.SectorRanges : Prop :=
  ∀ h : Int, 0 ≤ h → h ≤ 359 →
    (0 ≤ hueSector h ∧ hueSector h ≤ 5) ∧ (0 ≤ subPosition h ∧ subPosition h ≤ 251) ∧
    (0 ≤ sectorTemp (hueSector h) (subPosition h) ∧ sectorTemp (hueSector h) (subPosition h) ≤ 256) ∧
    [0, 4, 8, 12, 17, 21, 25, 29, 34, 38, 42, 46, 51, 55, 59, 64, 68, 72, 76, 81, 85, 89, 93, 98, 102, 106, 110, 115,
      119, 123, 128, 132, 136, 140, 145, 149, 153, 157, 162, 166, 170, 174, 179, 183, 187, 192, 196, 200, 204, 209, 213,
      217, 221, 226, 230, 234, 238, 243, 247, 251][(h - 60 * hueSector h).toNat]? = some (subPosition h)

/-- R57, which the spec marks as derived: the second-largest component, with a shift of a non-negative value; what it
is in even and odd sectors, and at the start of each. -/
def Obligations.SecondComponentBySector : Prop :=
  ∀ h c : Int, 0 ≤ h → h ≤ 359 →
    let temp := sectorTemp (hueSector h) (subPosition h)
    let x := secondComponent c temp
    x = c * (256 - temp) / 256 ∧ temp ≤ 256 ∧ (0 ≤ c → 0 ≤ c * (256 - temp)) ∧
    (hueSector h % 2 = 0 → x = c * subPosition h / 256) ∧
    (hueSector h % 2 = 1 → x = c * (256 - subPosition h) / 256) ∧
    (h % 60 = 0 → hueSector h % 2 = 0 → x = 0) ∧ (h % 60 = 0 → hueSector h % 2 = 1 → x = c)

/-- R64, which the spec marks as derived: the second-largest component lies between 0 and the chroma, for every
clamped input. -/
def Obligations.SecondComponentAtMostChroma : Prop :=
  ∀ h s l : Int, 0 ≤ h → h ≤ 359 → 0 ≤ s → s ≤ 99 → 0 ≤ l → l ≤ 99 →
    let temp := sectorTemp (hueSector h) (subPosition h)
    let x := secondComponent (chroma s l) temp
    (0 ≤ 256 - temp ∧ 256 - temp ≤ 256) ∧ 0 ≤ x ∧ x ≤ chroma s l

/-- R65, which the spec marks as derived: both dividends of step 9 are never negative, so truncation is the floor; the
shifted value of step 7 is never negative; and the ranges of `a` and `m`. -/
def Obligations.OffsetDividendsNonNegative : Prop :=
  ∀ s l : Int, 0 ≤ s → s ≤ 99 → 0 ≤ l → l ≤ 99 →
    let a := (512 * l).tdiv 100
    (0 ≤ a ∧ a ≤ 506) ∧ a = 512 * l / 100 ∧ 0 ≤ a - chroma s l ∧
    lightnessOffset l (chroma s l) = (a - chroma s l) / 2 ∧
    (0 ≤ lightnessOffset l (chroma s l) ∧ lightnessOffset l (chroma s l) ≤ 253) ∧
    ∀ h : Int, 0 ≤ h → h ≤ 359 → 0 ≤ chroma s l * (256 - sectorTemp (hueSector h) (subPosition h))

/-- R66, its first sentence: no channel of step 10 leaves 0 to 255, so the mask changes nothing. The example the rule
gives for the bound is true for saturations 79 to 97 only (log entry 18), and is stated for those. -/
def Obligations.FromHslChannelsNeverWrap : Prop :=
  (∀ (h0 s0 l0 : Int) (st : State),
    let h := reduceHue h0
    let c := chroma (clampPercent s0) (clampPercent l0)
    let m := lightnessOffset (clampPercent l0) c
    let p := routeSector (hueSector h) c (secondComponent c (sectorTemp (hueSector h) (subPosition h)))
    (0 ≤ p.1 + m ∧ p.1 + m ≤ 255) ∧ (0 ≤ p.2.1 + m ∧ p.2.1 + m ≤ 255) ∧ (0 ≤ p.2.2 + m ∧ p.2.2 + m ≤ 255) ∧
    exec (.fromHsl h0 s0 l0) st = exec (.pack (p.1 + m) (p.2.1 + m) (p.2.2 + m)) st) ∧
  (∀ (s : Int) (st : State), 79 ≤ s → s ≤ 97 → exec (.fromHsl 0 s 99) st = exec (.pack 255 251 251) st)

/-- R68: the single combined division gives the offset of the two-step form, and the distributed form does not. -/
def Obligations.CombinedDivisionSameOffset : Prop :=
  (∀ s l : Int, 0 ≤ s → s ≤ 99 → 0 ≤ l → l ≤ 99 →
    lightnessOffset l (chroma s l) = (512 * l - 100 * chroma s l) / 200) ∧
  lightnessOffset 20 (chroma 1 20) ≠ (512 * 20 / 100) / 2 - chroma 1 20 / 2

/-- R50's corner case: with no saturation or no luminosity the color is a grey of the lightness offset. -/
def Obligations.FromHslGreyWithoutChroma : Prop :=
  ∀ (h s l : Int) (st : State), s ≤ 0 ∨ l ≤ 0 →
    let m := 512 * max 0 (min 99 l) / 100 / 2
    exec (.fromHsl h s l) st = exec (.pack m m m) st

/-! ### BrightnessScaler -/

/-- R70 to R72: SCALE's encoding, its result for every Color and brightness, and that nothing but the response record
changes. -/
def Obligations.ScaleResult : Prop :=
  (∀ a b c : Word, decode (commandWord 0x4 a b c) =
    .instr (.scale (BitVec.ofNat 24 (a.toNat % 2 ^ 24)) (BitVec.ofNat 8 (b.toNat % 2 ^ 8)))) ∧
  ∀ (color : Color) (br : Byte) (s : State), ∃ out : Color,
    exec (.scale color br) s = .next { s with responses := s.responses ++ [⟨.ok, .color out⟩] } ∧
    (br = 255 → out = color) ∧
    (br ≠ 255 → out.toNat =
      redNat color * br.toNat / 256 * 65536 + greenNat color * br.toNat / 256 * 256 + blueNat color * br.toNat / 256)

/-- R73, which the spec marks as derived: below full brightness no channel exceeds 253, and no channel is ever raised.
-/
def Obligations.ScaleNeverRaisesChannel : Prop :=
  ∀ (color : Color) (br : Byte) (s : State), ∃ out : Color,
    exec (.scale color br) s = .next { s with responses := s.responses ++ [⟨.ok, .color out⟩] } ∧
    (redNat out ≤ redNat color ∧ greenNat out ≤ greenNat color ∧ blueNat out ≤ blueNat color) ∧
    (br ≠ 255 → redNat out ≤ 253 ∧ greenNat out ≤ 253 ∧ blueNat out ≤ 253)

/-- R74, which the spec marks as derived: SCALE is monotone in each channel at a fixed brightness, and in the
brightness, the step to 255 included. -/
def Obligations.ScaleMonotone : Prop :=
  (∀ (c c' : Color) (br : Byte),
    (redNat c ≤ redNat c' → redNat (scaleColor c br) ≤ redNat (scaleColor c' br)) ∧
    (greenNat c ≤ greenNat c' → greenNat (scaleColor c br) ≤ greenNat (scaleColor c' br)) ∧
    (blueNat c ≤ blueNat c' → blueNat (scaleColor c br) ≤ blueNat (scaleColor c' br))) ∧
  (∀ (c : Color) (br br' : Byte), br.toNat ≤ br'.toNat →
    redNat (scaleColor c br) ≤ redNat (scaleColor c br') ∧
    greenNat (scaleColor c br) ≤ greenNat (scaleColor c br') ∧
    blueNat (scaleColor c br) ≤ blueNat (scaleColor c br'))

/-! ### FrameBuilder -/

/-- R76: BUILD_FRAME's encoding, its twelve bytes for every Color, and that nothing but the response record changes. -/
def Obligations.BuildFrameResult : Prop :=
  (∀ a b c : Word, decode (commandWord 0x5 a b c) = .instr (.buildFrame (BitVec.ofNat 24 (a.toNat % 2 ^ 24)))) ∧
  ∀ (color : Color) (s : State), ∃ f : Frame,
    exec (.buildFrame color) s = .next { s with responses := s.responses ++ [⟨.ok, .frame f⟩] } ∧
    SlotsHold f (greenNat color) (redNat color) (blueNat color)

/-- R79: BUILD_CLEAR's encoding, its twelve zero bytes, and that nothing but the response record changes. -/
def Obligations.BuildClearResult : Prop :=
  (∀ a b c : Word, decode (commandWord 0x6 a b c) = .instr .buildClear) ∧
  ∀ s : State, ∃ f : Frame,
    exec .buildClear s = .next { s with responses := s.responses ++ [⟨.ok, .frame f⟩] } ∧ f.toList = List.replicate 12 0

/-- R80, which the spec marks as derived: BUILD_CLEAR answers as BUILD_FRAME of 0 does, and as BUILD_FRAME of any
color whose channels are 0. -/
def Obligations.BuildClearIsBlackFrame : Prop :=
  ∀ s : State, exec .buildClear s = exec (.buildFrame 0) s ∧
    ∀ color : Color, redNat color = 0 → greenNat color = 0 → blueNat color = 0 →
      exec (.buildFrame color) s = exec .buildClear s

/-! ### StripController -/

/-- R82: SET_BRIGHTNESS's encoding, the new value of BR for every integer, and that only BR and the response record
change. -/
def Obligations.SetBrightnessResult : Prop :=
  (∀ a b c : Word, decode (commandWord 0x7 a b c) = .instr (.setBrightness a.toInt)) ∧
  ∀ (v : Int) (s : State), ∃ b : Byte,
    exec (.setBrightness v) s = .next { s with br := b, responses := s.responses ++ [⟨.ok, .none⟩] } ∧
    (b.toNat : Int) = v % 256

/-- R84: GET_BRIGHTNESS's encoding and its answer, BR, with nothing but the response record changed; right after reset
the answer is 128. -/
def Obligations.GetBrightnessResult : Prop :=
  (∀ a b c : Word, decode (commandWord 0x8 a b c) = .instr .getBrightness) ∧
  (∀ s : State, exec .getBrightness s = .next { s with responses := s.responses ++ [⟨.ok, .brightness s.br⟩] }) ∧
  exec .getBrightness State.reset = .next { State.reset with responses := [⟨.ok, .brightness 128⟩] }

/-- R85 and R88: SHOW_COLOR's encoding, the frame it hands off for every Color and BR, and what TX_OK and TX_FAIL leave;
nothing else changes but the outcome used up. Two clauses are the model's reading, not those rules': that exec answers a
next state also when the transmitter never returns, where R88 and R96 say that the command never responds (log entry 5,
DEDUCED; what that state is, ExactlyOneHandOff and NoReturnStaysBusy say), and where the outcome comes from and that it
is used up (log entry 4, DEDUCED, the free value DESIGN CHOICE). -/
def Obligations.ShowColorResult : Prop :=
  (∀ a b c : Word, decode (commandWord 0x9 a b c) = .instr (.showColor (BitVec.ofNat 24 (a.toNat % 2 ^ 24)))) ∧
  ∀ (color : Color) (s : State), ∃ (f : Frame) (t : State),
    exec (.showColor color) s = .next t ∧ HandsOff f s t ∧
    SlotsHold f (scaledNat (greenNat color) s.br.toNat) (scaledNat (redNat color) s.br.toNat)
      (scaledNat (blueNat color) s.br.toNat)

/-- R89 and R88: CLEAR's encoding, its hand-off of twelve zero bytes whatever BR is, and what TX_OK and TX_FAIL leave;
nothing else changes but the outcome used up. Two clauses are the model's reading, not those rules': that exec answers a
next state also when the transmitter never returns, where R96 says that the command never responds (log entry 5,
DEDUCED; what that state is, ExactlyOneHandOff and NoReturnStaysBusy say), and where the outcome comes from and that
it is used up (log entry 4, DEDUCED, the free value DESIGN CHOICE). -/
def Obligations.ClearResult : Prop :=
  (∀ a b c : Word, decode (commandWord 0xA a b c) = .instr .clear) ∧
  ∃ f : Frame, f.toList = List.replicate 12 0 ∧ ∀ s : State, ∃ t : State, exec .clear s = .next t ∧ HandsOff f s t

/-- R86, which the spec marks as derived: the frame SHOW_COLOR hands off is the frame of the scaled color at every BR,
so showing the scaled color at full brightness does the same. -/
def Obligations.ShowColorIsScaledFrame : Prop :=
  ∀ (color : Color) (s t : State), exec (.showColor color) s = .next t →
    showFrame color s.br = buildUniformFrame (scaleColor color s.br) ∧
    exec (.showColor (scaleColor color s.br)) { s with br := 255 } = .next { t with br := 255 }

/-- R90, which the spec marks as derived: CLEAR does what SHOW_COLOR of color 0 does, at any BR. -/
def Obligations.ClearIsShowBlack : Prop :=
  ∀ s : State, exec .clear s = exec (.showColor 0) s

/-- R115: a SET_BRIGHTNESS takes full effect before its response, and whichever command is issued next is performed with
the new BR, in the very next step. -/
def Obligations.NextCommandSeesNewBrightness : Prop :=
  ∀ (s : State) (w w' : CommandWord) (rest : List HostEvent) (b : Byte) (i : Instr), Ready s →
    s.host = .issue w :: .issue w' :: rest → opField w = 0x7 → decode w' = .instr i →
    (b.toNat : Int) = (opaField w).toInt % 256 →
    step s = .next { s with
      br := b, host := .issue w' :: rest, responses := s.responses ++ [⟨.ok, .none⟩] } ∧
    runSteps 2 s = exec i { s with br := b, host := rest, responses := s.responses ++ [⟨.ok, .none⟩] }

/-! ### What commands leave unchanged -/

/-- The frame of the eight commands without a hand-off (PACK, UNPACK, FROM_HSL, SCALE, BUILD_FRAME, BUILD_CLEAR,
SET_BRIGHTNESS, GET_BRIGHTNESS): each always answers OK (R94), and nothing changes but the response record and, for
SET_BRIGHTNESS, BR (R17, R35). -/
def Obligations.EightCommandsAlwaysAnswerOk : Prop :=
  ∀ (i : Instr) (s : State), handsOffFrame i.mnemonic = false →
    ∃ t p, exec i s = .next t ∧ t.responses = s.responses ++ [⟨.ok, p⟩] ∧ t.inFlight = s.inFlight ∧
      t.host = s.host ∧ t.txAnswers = s.txAnswers ∧ t.txDraws = s.txDraws ∧ t.handOffs = s.handOffs ∧
      (i.mnemonic ≠ .setBrightness → t.br = s.br)

/-- The frame of SHOW_COLOR and CLEAR, whatever events the host holds: BR and the host's events are unchanged; exactly
one hand-off is made, of the command's own frame, whole and with PIN: for SHOW_COLOR the scaled color's twelve bytes
(R85), for CLEAR twelve zero bytes (R89). If the hand-off ended it stands in the record and one response is added; if
not, that very hand-off is the one in progress and neither a response nor an ended hand-off is added (R24, R25, R87,
R96). -/
def Obligations.ExactlyOneHandOff : Prop :=
  ∀ (i : Instr) (s t : State), Ready s → handsOffFrame i.mnemonic = true → exec i s = .next t →
    t.br = s.br ∧ t.host = s.host ∧
    ∃ f, handOffFrame i s.br = some f ∧
      (∀ color, i = .showColor color → SlotsHold f (scaledNat (greenNat color) s.br.toNat)
        (scaledNat (redNat color) s.br.toNat) (scaledNat (blueNat color) s.br.toNat)) ∧
      (i = .clear → f.toList = List.replicate 12 0) ∧
      allHandOffs t = allHandOffs s ++ [⟨f, Config.pin, none⟩] ∧
      ((t.inFlight = none ∧ t.handOffs = s.handOffs ++ [⟨f, Config.pin, none⟩] ∧
          ∃ r, t.responses = s.responses ++ [r]) ∨
        (t.inFlight = some ⟨f, Config.pin, none⟩ ∧ t.handOffs = s.handOffs ∧ t.responses = s.responses))

/-- R17: no command but SET_BRIGHTNESS changes BR, whatever the transmitter does. -/
def Obligations.OnlySetBrightnessWritesBr : Prop :=
  ∀ (i : Instr) (s t : State), exec i s = .next t → t.br ≠ s.br → ∃ v, i = .setBrightness v

/-- R83: a step changes BR only by performing SET_BRIGHTNESS, which stores OPA's low byte, or by a reset, which stores
128. -/
def Obligations.StepChangesBrOnlyBySetOrReset : Prop :=
  ∀ s t : State, step s = .next t → t.br ≠ s.br →
    (∃ w rest, s.host = .issue w :: rest ∧ opField w = 0x7 ∧ (t.br.toNat : Int) = (opaField w).toInt % 256) ∨
    (t.br = 128 ∧ ((∃ e rest, s.host = .reset e :: rest) ∨ ∃ w e rest, s.host = .resetDuring w e :: rest))

/-- R18: a command other than SHOW_COLOR and GET_BRIGHTNESS gives the same response and the same hand-off whatever BR
holds. -/
def Obligations.OnlyShowAndGetReadBr : Prop :=
  ∀ (i : Instr) (s t u : State) (b : Byte), i.mnemonic ≠ .showColor → i.mnemonic ≠ .getBrightness →
    exec i s = .next t → exec i { s with br := b } = .next u →
    u.responses = t.responses ∧ u.handOffs = t.handOffs ∧ u.inFlight = t.inFlight

/-- R35: reissuing any command but SHOW_COLOR and CLEAR gives the same response and leaves the same state. -/
def Obligations.ReissueIsIdempotent : Prop :=
  ∀ (i : Instr) (s t : State), handsOffFrame i.mnemonic = false → exec i s = .next t →
    ∃ r, t.responses = s.responses ++ [r] ∧ exec i t = .next { t with responses := t.responses ++ [r] }

/-- R22 and R23: a command adds at most one response; its payload has the shape the table fixes for the command and the
status, and its status code is 0 or 1. -/
def Obligations.ResponseShapeByCommand : Prop :=
  ∀ (i : Instr) (s t : State), exec i s = .next t →
    (t.responses = s.responses ∧ t.inFlight ≠ none) ∨
    ∃ r, t.responses = s.responses ++ [r] ∧ payloadFits i.mnemonic r = true ∧
      (r.status.code = 0 ∨ r.status.code = 1 ∧ ∃ info, r.payload = .info info)

/-! ### Failure, no return, reset -/

/-- R97 and R101: after TX_FAIL the core is in the condition it would be in after OK; only the response differs. -/
def Obligations.FailureLeavesCoreAsAfterOk : Prop :=
  ∀ (i : Instr) (s t u : State) (info : TxInfo) (rest : List TxOutcome), handsOffFrame i.mnemonic = true →
    exec i { s with txAnswers := .ok :: rest } = .next t →
    exec i { s with txAnswers := .fail info :: rest } = .next u →
    t.responses = s.responses ++ [⟨.ok, .none⟩] ∧
    u = { t with responses := s.responses ++ [⟨.txFail, .info info⟩] }

/-- R96 case 3 and U5: a hand-off that never returns changes nothing but that the core waits for it, and the core then
accepts no further command, for any number of steps. That the core shows this as a state that each step leaves as it is,
is the model's reading (log entry 5). -/
def Obligations.NoReturnStaysBusy : Prop :=
  ∀ (i : Instr) (s : State), handsOffFrame i.mnemonic = true → nextOutcome s = .noReturn →
    (∀ e ∈ s.host, ∃ w, e = .issue w) →
    ∃ f t, handOffFrame i s.br = some f ∧ exec i s = .next t ∧
      t = { useOutcome s with inFlight := some ⟨f, Config.pin, none⟩ } ∧
      ¬ Ready t ∧ t.responses = s.responses ∧ t.br = s.br ∧ ∀ k, runSteps k t = .next t

/-- R109 and R111: after reset BR is 128, nothing is in progress or pending, and the first command is accepted at
once. -/
def Obligations.ResetIsReadyAt128 : Prop :=
  State.reset.br = 128 ∧ Ready State.reset ∧
  ∀ (w : CommandWord) (i : Instr), decode w = .instr i →
    step { State.reset with host := [.issue w] } = exec i State.reset

/-- R112 and U6: a reset during a command returns no response and leaves BR at 128; the hand-off of SHOW_COLOR or CLEAR
was not made, was made, or was cut short, and each case has its event. That a cut hand-off is a run of leading bytes is
the model's reading (log entry 8). -/
def Obligations.ResetDuringCommandAbandons : Prop :=
  ∀ (s : State) (w : CommandWord) (e : HandOffExtent) (rest : List HostEvent) (i : Instr),
    Ready s → s.host = .resetDuring w e :: rest → decode w = .instr i →
    ∃ t, step s = .next t ∧ t.br = 128 ∧ Ready t ∧ t.host = rest ∧ t.responses = s.responses ∧
      (handsOffFrame i.mnemonic = false → t.handOffs = s.handOffs) ∧
      (∀ f, (∃ color, i = .showColor color ∧ f = showFrame color s.br) ∨ (i = .clear ∧ f = Vector.replicate 12 0) →
        (e = .notMade → t.handOffs = s.handOffs) ∧
        (e = .whole → t.handOffs = s.handOffs ++ [⟨f, Config.pin, none⟩]) ∧
        (∀ n, e = .cutShort n → ∃ h : HandOff, t.handOffs = s.handOffs ++ [h] ∧ h.pin = Config.pin ∧
          h.bytes = f.toList.take n.val))

/-- R109 and R111: a reset of a core that is idle or waits for the transmitter makes it ready with BR at 128. The rest
is the model's choice, not those rules'. That a reset while the core waits is a reset during a command in the sense of
R112, so that it adds no response and lets none, all or part of the awaited hand-off through, is log entry 9 (DEDUCED).
That the host's later events and the records of responses and of ended hand-offs are kept, and that a hand-off cut short
is recorded with a count of bytes, is log entry 8 (DESIGN CHOICE). -/
def Obligations.ResetMakesReady : Prop :=
  ∀ (s : State) (e : HandOffExtent) (rest : List HostEvent), s.host = .reset e :: rest →
    ∃ t, step s = .next t ∧ t.br = 128 ∧ Ready t ∧ t.host = rest ∧ t.responses = s.responses ∧
      (Ready s → t.handOffs = s.handOffs) ∧
      (∀ h, s.inFlight = some h → ∃ hs, t.handOffs = s.handOffs ++ hs ∧
        ((hs = [] ∧ e = .notMade) ∨ (hs = [⟨h.frame, Config.pin, none⟩] ∧ e = .whole) ∨
          ∃ n, hs = [⟨h.frame, Config.pin, some n⟩] ∧ e = .cutShort n))

/-! ### Invariant and runs -/

/-- The machine after reset meets the invariant, and no hand-off is in progress (R111). That every recorded response and
hand-off is legal holds by the records being empty at reset, the model's choice (log entry 15, DESIGN CHOICE). -/
def Obligations.ResetMeetsCoreInv : Prop := CoreInv State.reset ∧ Ready State.reset

/-- Every step keeps the invariant (R22 to R24, R26, R78, R81): responses have legal shapes, and every hand-off is a
uniform frame with the configured PIN. -/
def Obligations.StepKeepsCoreInv : Prop :=
  ∀ s t : State, CoreInv s → step s = .next t → CoreInv t

/-- R120 and R37: a serialised run of assigned commands whose hand-offs all return ends after one step a command, with
one response a command, one hand-off for each SHOW_COLOR and CLEAR, and BR as the SET_BRIGHTNESS commands in issue order
leave it. No reset stands in such a run, so its end is R120's (log entry 19). -/
def Obligations.SerialisedRunEnds : Prop :=
  ∀ (ws : List CommandWord) (s : State), Ready s → s.host = ws.map .issue →
    (∀ w ∈ ws, assignedOpcode (opField w) = true) →
    (∀ o ∈ s.txAnswers, o.returns = true) → ws.length ≤ s.txAnswers.length →
    ∃ t, runSteps ws.length s = .next t ∧ RunEnded t ∧
      t.responses.length = s.responses.length + ws.length ∧
      t.handOffs.length = s.handOffs.length + ws.countP (fun w => opField w == 0x9 || opField w == 0xA) ∧
      t.br = ws.foldl brAfterWord s.br
end

