-- ==== Sys2Proof/Laws/Assembler.lean ====
section
/-! SUPPORT. What reading a number, cutting a text at its commas, trimming its blanks and assembling it give
(30_encoding.md R46). -/

namespace Sys2Proof.Machine

theorem char_eq_ofNat_add {c : Char} {k d : Nat} (h : c.toNat = k + d) : c = Char.ofNat (k + d) := by
  rw [← h, Char.ofNat_toNat]

theorem char_le_iff {a c : Char} : a ≤ c ↔ a.toNat ≤ c.toNat := UInt32.le_iff_toNat_le

/-- The decimal digits are '0' to '9'. -/
theorem decimalDigit_eq_some_iff {c : Char} {d : Nat} :
    decimalDigit c = some d ↔ d < 10 ∧ c = Char.ofNat (48 + d) := by
  constructor
  · intro h
    simp only [decimalDigit, char_le_iff, Char.reduceToNat] at h
    split at h
    · simp only [Option.some.injEq] at h
      exact ⟨by omega, char_eq_ofNat_add (by omega)⟩
    · cases h
  · rintro ⟨hd, rfl⟩
    interval_cases d <;> rfl

/-- The hexadecimal digits are the decimal ones and 'A' to 'F', in either case. -/
theorem hexDigit_eq_some_iff {c : Char} {d : Nat} : hexDigit c = some d ↔
    (d < 10 ∧ c = Char.ofNat (48 + d)) ∨ (10 ≤ d ∧ d < 16 ∧ (c = Char.ofNat (55 + d) ∨ c = Char.ofNat (87 + d))) := by
  constructor
  · intro h
    simp only [hexDigit, char_le_iff, Char.reduceToNat] at h
    split at h
    · simp only [Option.some.injEq] at h
      exact .inr ⟨by omega, by omega, .inl (char_eq_ofNat_add (by omega))⟩
    split at h
    · simp only [Option.some.injEq] at h
      exact .inr ⟨by omega, by omega, .inr (char_eq_ofNat_add (by omega))⟩
    · exact .inl (decimalDigit_eq_some_iff.mp h)
  · rintro (⟨hd, rfl⟩ | ⟨hl, hd, rfl | rfl⟩) <;> interval_cases d <;> rfl

/-- Reading digits succeeds exactly when every character is a digit, and gives the number they write. -/
theorem readDigits_eq_some_iff {digit : Char → Option Nat} {base acc v : Nat} {text : List Char} :
    readDigits digit base acc text = some v ↔
      ∃ ds : List Nat, text.map digit = ds.map some ∧ v = ds.foldl (fun a d => a * base + d) acc := by
  induction text generalizing acc with
  | nil =>
    constructor
    · rintro ⟨⟩
      exact ⟨[], rfl, rfl⟩
    · rintro ⟨_ | ⟨d, ds⟩, h, rfl⟩
      · rfl
      · cases h
  | cons c rest ih =>
    cases h : digit c with
    | none =>
      simp only [readDigits, h, List.map_cons]
      refine iff_of_false (by simp) ?_
      rintro ⟨ds, hds, -⟩
      cases ds <;> simp at hds
    | some d =>
      simp only [readDigits, h, ih, List.map_cons]
      constructor
      · rintro ⟨ds, hds, rfl⟩
        exact ⟨d :: ds, by simp [hds], rfl⟩
      · rintro ⟨ds, hds, rfl⟩
        cases ds with
        | nil => simp at hds
        | cons e ds =>
          simp only [List.map_cons, List.cons.injEq, Option.some.injEq] at hds
          obtain ⟨rfl, hds⟩ := hds
          exact ⟨ds, hds, rfl⟩

theorem readNumber_eq_some_iff {digit : Char → Option Nat} {base v : Nat} {text : List Char} :
    readNumber digit base text = some v ↔
      text ≠ [] ∧ ∃ ds : List Nat, text.map digit = ds.map some ∧ v = ds.foldl (fun a d => a * base + d) 0 := by
  unfold readNumber
  split <;> simp_all [readDigits_eq_some_iff]

/-- A decimal operand is the word whose signed value it writes (R46). -/
theorem decimalField_eq_some_iff {v : Int} {w : Word} : decimalField v = some w ↔ w.toInt = v := by
  unfold decimalField inSigned32 signedField
  constructor
  · intro h
    split at h <;> simp at h
    rename_i hr
    simp at hr
    rw [← h, BitVec.toInt_ofInt]
    exact Int.bmod_eq_of_le (by omega) (by omega)
  · rintro rfl
    have := w.toInt_lt
    have := w.le_toInt
    rw [if_pos (by simp; omega)]
    simp

/-- Cutting at the commas gives back the pieces that were joined. -/
theorem splitCommas_append {t : List Char} (ht : ',' ∉ t) (rest piece : List Char) :
    splitCommas (t ++ rest) piece = splitCommas rest (t.reverse ++ piece) := by
  induction t generalizing piece with
  | nil => rfl
  | cons c t ih =>
    simp only [List.mem_cons, not_or] at ht
    simp [splitCommas, Ne.symm ht.1, ih ht.2]

theorem splitCommas_intercalate (blanks : List Char) (hb : ',' ∉ blanks) (t : List Char) (ts : List (List Char))
    (h : ∀ u ∈ t :: ts, ',' ∉ u) :
    splitCommas (List.intercalate (',' :: blanks) (t :: ts)) [] = t :: ts.map (blanks ++ ·) := by
  suffices ∀ piece, splitCommas (List.intercalate (',' :: blanks) (t :: ts)) piece =
      (piece.reverse ++ t) :: ts.map (blanks ++ ·) from this []
  induction ts generalizing t with
  | nil =>
    intro piece
    have := splitCommas_append (h t (by simp)) [] piece
    simpa [splitCommas] using this
  | cons u ts ih =>
    intro piece
    rw [List.intercalate_cons_cons, List.append_assoc, splitCommas_append (h t (by simp))]
    simp only [List.cons_append, splitCommas, if_true]
    rw [splitCommas_append hb, ih u (fun x hx => h x (by simp at hx ⊢; tauto))]
    simp

/-- A text that starts and ends with other characters has no blanks to trim. -/
theorem skipBlanks_of_head {text : List Char} (h : text.head? ≠ some ' ') : skipBlanks text = text := by
  cases text with
  | nil => rfl
  | cons c t => simp at h; simp [skipBlanks, h]

theorem trimBlanks_of_ends {text : List Char} (h : text.head? ≠ some ' ') (h' : text.getLast? ≠ some ' ') :
    trimBlanks text = text := by
  rw [trimBlanks, skipBlanks_of_head h, skipBlanks_of_head (by simpa using h'), List.reverse_reverse]

theorem trimBlanks_blanks (k : Nat) {text : List Char} (h : ' ' ∉ text) :
    trimBlanks (List.replicate k ' ' ++ text) = text := by
  have hs : skipBlanks (List.replicate k ' ' ++ text) = skipBlanks text := by
    induction k with
    | zero => rfl
    | succ k ih =>
      rw [List.replicate_succ, List.cons_append, skipBlanks, List.dropWhile_cons_of_pos (by simp)]
      exact ih
  rw [trimBlanks, hs]
  exact trimBlanks_of_ends (fun e => h (List.mem_of_mem_head? e)) (fun e => h (List.mem_of_mem_getLast? e))

/-- Operands with blanks before them are read one by one. -/
theorem readOperandList_blanks (k : Nat) (texts : List (List Char)) (h : ∀ t ∈ texts, ' ' ∉ t) :
    readOperandList (texts.map (List.replicate k ' ' ++ ·)) = texts.mapM readOperand := by
  induction texts with
  | nil => rfl
  | cons t ts ih =>
    simp only [List.map_cons, readOperandList, trimBlanks_blanks k (h t (by simp)),
      ih (fun u hu => h u (List.mem_cons_of_mem _ hu)), List.mapM_cons]
    cases readOperand t <;> simp
    cases List.mapM readOperand ts <;> rfl

/-- Operands joined by any separator start and end with a character of an operand. -/
theorem intercalate_ends (sep t : List Char) (ts : List (List Char)) (h : ∀ u ∈ t :: ts, u ≠ [] ∧ ' ' ∉ u) :
    (List.intercalate sep (t :: ts)).head? ≠ some ' ' ∧ (List.intercalate sep (t :: ts)).getLast? ≠ some ' ' ∧
      List.intercalate sep (t :: ts) ≠ [] := by
  induction ts generalizing t with
  | nil =>
    obtain ⟨hne, hb⟩ := h t (by simp)
    simp only [List.intercalate_singleton]
    exact ⟨fun e => hb (List.mem_of_mem_head? e), fun e => hb (List.mem_of_mem_getLast? e), hne⟩
  | cons u ts ih =>
    obtain ⟨hne, hb⟩ := h t (by simp)
    obtain ⟨-, hl, hn⟩ := ih u (fun x hx => h x (List.mem_cons_of_mem _ hx))
    rw [List.intercalate_cons_cons]
    refine ⟨?_, ?_, by simp [hn]⟩
    · rw [List.append_assoc, List.head?_append_of_ne_nil _ hne]
      exact fun e => hb (List.mem_of_mem_head? e)
    · rwa [List.getLast?_append_of_ne_nil _ hn]

theorem mnemonicText_clean (m : Mnemonic) : ' ' ∉ mnemonicText m ∧ mnemonicText m ≠ [] := by cases m <;> decide

/-- Every mnemonic is found by its own text (R47). -/
theorem find_mnemonicText (m : Mnemonic) :
    (allMnemonics.find? fun x => mnemonicText x = mnemonicText m) = some m := by cases m <;> decide

/-- Where the first blank is the one after the mnemonic, the text is cut there. -/
theorem assemble_of_ends (m : Mnemonic) (rest : List Char) (h : rest = [] ∨ rest.head? = some ' ')
    (h' : rest.getLast? ≠ some ' ') : assemble (mnemonicText m ++ rest) =
      (readOperandList (if skipBlanks rest = [] then [] else splitCommas (skipBlanks rest) [])).bind
        (assembleFields m) := by
  obtain ⟨hb, hne⟩ := mnemonicText_clean m
  have hd : ∀ c ∈ mnemonicText m, decide (c ≠ ' ') = true := by
    intro c hc
    simp only [decide_eq_true_eq]
    rintro rfl
    exact hb hc
  have hstart : (mnemonicText m ++ rest).head? ≠ some ' ' := by
    rw [List.head?_append_of_ne_nil _ hne]
    exact fun e => hb (List.mem_of_mem_head? e)
  have hend : (mnemonicText m ++ rest).getLast? ≠ some ' ' := by
    rcases rest with _ | ⟨c, rest⟩
    · rw [List.append_nil]
      exact fun e => hb (List.mem_of_mem_getLast? e)
    · rwa [List.getLast?_append_of_ne_nil _ (List.cons_ne_nil _ _)]
  have hcut : rest.takeWhile (· ≠ ' ') = [] ∧ rest.dropWhile (· ≠ ' ') = rest := by
    rcases h with rfl | h
    · simp
    · cases rest with
      | nil => simp
      | cons c rest => simp at h; simp [h]
  simp only [assemble, trimBlanks_of_ends hstart hend, List.takeWhile_append_of_pos hd, List.dropWhile_append_of_pos hd,
    hcut.1, hcut.2, List.append_nil, find_mnemonicText, Option.bind_some]

/-- A mnemonic alone is assembled with no operands. -/
theorem assemble_mnemonic (m : Mnemonic) : assemble (mnemonicText m) = assembleFields m [] := by
  have h := assemble_of_ends m [] (.inl rfl) (by simp)
  rw [List.append_nil] at h
  rw [h]
  rfl

/-- A mnemonic, a blank and operands with commas and any blanks between them: each operand is read, and the fields are
assembled from them. -/
theorem assemble_operands (k : Nat) (m : Mnemonic) (t : List Char) (ts : List (List Char))
    (h : ∀ u ∈ t :: ts, u ≠ [] ∧ ',' ∉ u ∧ ' ' ∉ u) :
    assemble (mnemonicText m ++ ' ' :: List.intercalate (',' :: List.replicate k ' ') (t :: ts)) =
      ((t :: ts).mapM readOperand).bind (assembleFields m) := by
  obtain ⟨hs, he, hn⟩ := intercalate_ends (',' :: List.replicate k ' ') t ts (fun u hu => ⟨(h u hu).1, (h u hu).2.2⟩)
  have hskip : skipBlanks (' ' :: List.intercalate (',' :: List.replicate k ' ') (t :: ts)) =
      List.intercalate (',' :: List.replicate k ' ') (t :: ts) := by
    rw [skipBlanks, List.dropWhile_cons_of_pos (by simp)]
    exact skipBlanks_of_head hs
  have hlast : (' ' :: List.intercalate (',' :: List.replicate k ' ') (t :: ts)).getLast? ≠ some ' ' := by
    obtain ⟨c, l, hc⟩ := List.exists_cons_of_ne_nil hn
    rw [hc] at he ⊢
    rwa [List.getLast?_cons_cons]
  rw [assemble_of_ends m _ (.inr rfl) hlast, hskip, if_neg hn,
    splitCommas_intercalate _ (by simp) _ _ (fun u hu => (h u hu).2.1)]
  have hfirst : trimBlanks t = t := by simpa using trimBlanks_blanks 0 (h t (by simp)).2.2
  have hrest := readOperandList_blanks k ts (fun u hu => (h u (List.mem_cons_of_mem _ hu)).2.2)
  simp only [readOperandList, hfirst, hrest, List.mapM_cons]
  cases readOperand t <;> simp
  cases List.mapM readOperand ts <;> rfl

end Sys2Proof.Machine
end

