-- ==== Sys2Proof/Laws/Decode.lean ====
section
/-! SUPPORT. The fields of a command word, and what decoding a word with known fields gives. -/

namespace Sys2Proof

/-- Where each bit of a command word comes from (R42). -/
theorem getLsbD_commandWord (op : Opcode) (a b c : Word) (i : Nat) : (commandWord op a b c).getLsbD i =
    if i < 32 then c.getLsbD i else if i < 64 then b.getLsbD (i - 32)
    else if i < 96 then a.getLsbD (i - 64) else op.getLsbD (i - 96) := by
  have h : (commandWord op a b c).getLsbD i = BitVec.getLsbD (w := 4 + 32 + 32 + 32) (op ++ a ++ b ++ c) i := rfl
  rw [h, BitVec.getLsbD_append, BitVec.getLsbD_append, BitVec.getLsbD_append]
  split_ifs <;> first | rfl | omega

@[simp] theorem opField_commandWord (op : Opcode) (a b c : Word) : opField (commandWord op a b c) = op := by
  apply BitVec.eq_of_getLsbD_eq
  intro i hi
  rw [opField, BitVec.getLsbD_extractLsb', getLsbD_commandWord, if_neg (by omega), if_neg (by omega), if_neg (by omega)]
  simp [hi]

@[simp] theorem opaField_commandWord (op : Opcode) (a b c : Word) : opaField (commandWord op a b c) = a := by
  apply BitVec.eq_of_getLsbD_eq
  intro i hi
  rw [opaField, BitVec.getLsbD_extractLsb', getLsbD_commandWord, if_neg (by omega), if_neg (by omega), if_pos (by omega)]
  simp [hi]

@[simp] theorem opbField_commandWord (op : Opcode) (a b c : Word) : opbField (commandWord op a b c) = b := by
  apply BitVec.eq_of_getLsbD_eq
  intro i hi
  rw [opbField, BitVec.getLsbD_extractLsb', getLsbD_commandWord, if_neg (by omega), if_pos (by omega)]
  simp [hi]

@[simp] theorem opcField_commandWord (op : Opcode) (a b c : Word) : opcField (commandWord op a b c) = c := by
  apply BitVec.eq_of_getLsbD_eq
  intro i hi
  rw [opcField, BitVec.getLsbD_extractLsb', getLsbD_commandWord, if_pos (by omega)]
  simp [hi]

/-- Every opcode of the map selects the mnemonic it stands for (R43). -/
@[simp] theorem ofOpcode_opcode (m : Mnemonic) : Mnemonic.ofOpcode m.opcode = some m := by cases m <;> rfl

/-- Decoding looks up OP and reads the operand fields (R42). -/
theorem decode_commandWord (m : Mnemonic) (a b c : Word) :
    decode (commandWord m.opcode a b c) = .instr (readOperands m a b c) := by simp [decode]

/-- A word decodes to a command exactly when its opcode is assigned. -/
theorem decode_eq_instr_iff {w : CommandWord} {i : Instr} :
    decode w = .instr i ↔ ∃ m, Mnemonic.ofOpcode (opField w) = some m ∧
      i = readOperands m (opaField w) (opbField w) (opcField w) := by
  unfold decode
  cases h : Mnemonic.ofOpcode (opField w) <;> simp [eq_comm]

@[simp] theorem readOperands_mnemonic (m : Mnemonic) (a b c : Word) : (readOperands m a b c).mnemonic = m := by
  cases m <;> rfl

end Sys2Proof
end

