-- ==== Sys2Proof/Laws/Operands.lean ====
section
/-! SUPPORT. What the bit-field, byte and frame helpers compute, as numbers. -/

namespace Sys2Proof.Machine

/-- `v & 0xFF` is v emod 256 (00_scope.md section 4). -/
theorem low8_toNat (v : Int) : ((low8 v).toNat : Int) = v % 256 := by
  simp [low8, BitVec.toNat_ofInt, Int.emod_nonneg]

/-- `v & 0xFF` depends on v modulo 256 only. -/
theorem low8_channelInt (b : Byte) : low8 (channelInt b) = b := by
  apply BitVec.eq_of_toNat_eq
  have h := low8_toNat b.toNat
  have hb := b.isLt
  rw [channelInt]
  omega

theorem redOf_toNat (c : Color) : (redOf c).toNat = c.toNat / 65536 := by
  have := c.isLt
  simp only [redOf, BitVec.extractLsb'_toNat, Nat.shiftRight_eq_div_pow]
  omega

theorem greenOf_toNat (c : Color) : (greenOf c).toNat = c.toNat / 256 % 256 := by
  simp [greenOf, BitVec.extractLsb'_toNat, Nat.shiftRight_eq_div_pow]

theorem blueOf_toNat (c : Color) : (blueOf c).toNat = c.toNat % 256 := by
  simp [blueOf, BitVec.extractLsb'_toNat]

/-- The shifts and ors of R28 lay the three bytes side by side. -/
theorem packChannels_eq_append (r g b : Byte) : packChannels r g b = r ++ g ++ b := by
  apply BitVec.eq_of_getLsbD_eq
  intro i hi
  have hr := BitVec.getLsbD_of_ge r (i - 16)
  have hg := BitVec.getLsbD_of_ge g (i - 8)
  have hb := BitVec.getLsbD_of_ge b i
  simp only [packChannels, BitVec.getLsbD_or, BitVec.getLsbD_shiftLeft, BitVec.getLsbD_setWidth, BitVec.getLsbD_append]
  by_cases h8 : i < 8
  · simp [h8, show i < 16 by omega, hi]
  · by_cases h16 : i < 16
    · simp [h8, h16, hi, hb (by omega), show i - 8 < 8 by omega, show i - 8 < 24 by omega]
    · simp [h8, h16, hi, hb (by omega), hg (by omega), show ¬ i - 8 < 8 by omega, show i - 16 < 24 by omega,
        show i - 8 - 8 = i - 16 by omega]

theorem packChannels_toNat (r g b : Byte) :
    (packChannels r g b).toNat = r.toNat * 65536 + g.toNat * 256 + b.toNat := by
  have hg := g.isLt
  have hb := b.isLt
  rw [packChannels_eq_append, BitVec.toNat_append, BitVec.toNat_append, ← Nat.shiftLeft_add_eq_or_of_lt hb,
    ← Nat.shiftLeft_add_eq_or_of_lt hg, Nat.shiftLeft_eq, Nat.shiftLeft_eq]
  omega

@[simp] theorem redOf_packChannels (r g b : Byte) : redOf (packChannels r g b) = r := by
  apply BitVec.eq_of_toNat_eq
  have := g.isLt; have := b.isLt
  rw [redOf_toNat, packChannels_toNat]; omega

@[simp] theorem greenOf_packChannels (r g b : Byte) : greenOf (packChannels r g b) = g := by
  apply BitVec.eq_of_toNat_eq
  have := g.isLt; have := b.isLt
  rw [greenOf_toNat, packChannels_toNat]; omega

@[simp] theorem blueOf_packChannels (r g b : Byte) : blueOf (packChannels r g b) = b := by
  apply BitVec.eq_of_toNat_eq
  have := b.isLt
  rw [blueOf_toNat, packChannels_toNat]; omega

/-- A Color is its three channels (R28). -/
@[simp] theorem packChannels_of_channels (c : Color) : packChannels (redOf c) (greenOf c) (blueOf c) = c := by
  apply BitVec.eq_of_toNat_eq
  have := c.isLt
  rw [packChannels_toNat, redOf_toNat, greenOf_toNat, blueOf_toNat]; omega

/-- One scaled channel as a number (R72). -/
theorem scaleChannel_toNat (ch br : Byte) : (scaleChannel ch br).toNat = ch.toNat * br.toNat / 256 := by
  have h := low8_toNat (shr (channelInt ch * channelInt br) 8)
  have hle : ch.toNat * br.toNat ≤ 255 * 255 :=
    Nat.mul_le_mul (Nat.le_of_lt_succ ch.isLt) (Nat.le_of_lt_succ br.isLt)
  simp only [shr, channelInt] at h
  rw [scaleChannel, shr, channelInt, channelInt]
  norm_cast at h ⊢
  omega

@[simp] theorem scaleColor_full (c : Color) : scaleColor c 255#8 = c := by simp [scaleColor]

theorem scaleColor_of_ne {br : Byte} (h : br ≠ 255) (c : Color) :
    scaleColor c br =
      packChannels (scaleChannel (redOf c) br) (scaleChannel (greenOf c) br) (scaleChannel (blueOf c) br) := by
  rw [scaleColor, if_neg h]

/-- The bytes of a uniform frame, in order (R29, R76). -/
theorem buildUniformFrame_toList (c : Color) : (buildUniformFrame c).toList =
    [greenOf c, redOf c, blueOf c, greenOf c, redOf c, blueOf c, greenOf c, redOf c, blueOf c,
      greenOf c, redOf c, blueOf c] := rfl

theorem buildClearFrame_toList : buildClearFrame.toList = List.replicate 12 0 := rfl

end Sys2Proof.Machine
end

