-- ==== Sys2Proof/Laws/State.lean ====
section
/-! SUPPORT. What each update of State does to each field, and that updates of different fields do not meet. -/

namespace Sys2Proof.Machine

@[simp] theorem respond_br (st : Status) (p : Payload) (s : State) : (respond st p s).br = s.br := rfl
@[simp] theorem respond_inFlight (st : Status) (p : Payload) (s : State) : (respond st p s).inFlight = s.inFlight := rfl
@[simp] theorem respond_host (st : Status) (p : Payload) (s : State) : (respond st p s).host = s.host := rfl
@[simp] theorem respond_txAnswers (st : Status) (p : Payload) (s : State) :
    (respond st p s).txAnswers = s.txAnswers := rfl
@[simp] theorem respond_txDraws (st : Status) (p : Payload) (s : State) : (respond st p s).txDraws = s.txDraws := rfl
@[simp] theorem respond_responses (st : Status) (p : Payload) (s : State) :
    (respond st p s).responses = s.responses ++ [⟨st, p⟩] := rfl
@[simp] theorem respond_handOffs (st : Status) (p : Payload) (s : State) : (respond st p s).handOffs = s.handOffs := rfl

@[simp] theorem writeBr_br (v : Byte) (s : State) : (writeBr v s).br = v := rfl
@[simp] theorem writeBr_inFlight (v : Byte) (s : State) : (writeBr v s).inFlight = s.inFlight := rfl
@[simp] theorem writeBr_host (v : Byte) (s : State) : (writeBr v s).host = s.host := rfl
@[simp] theorem writeBr_txAnswers (v : Byte) (s : State) : (writeBr v s).txAnswers = s.txAnswers := rfl
@[simp] theorem writeBr_txDraws (v : Byte) (s : State) : (writeBr v s).txDraws = s.txDraws := rfl
@[simp] theorem writeBr_responses (v : Byte) (s : State) : (writeBr v s).responses = s.responses := rfl
@[simp] theorem writeBr_handOffs (v : Byte) (s : State) : (writeBr v s).handOffs = s.handOffs := rfl
@[simp] theorem readBr_writeBr (v : Byte) (s : State) : readBr (writeBr v s) = v := rfl
@[simp] theorem readBr_respond (st : Status) (p : Payload) (s : State) : readBr (respond st p s) = readBr s := rfl

@[simp] theorem recordHandOff_br (h : HandOff) (s : State) : (recordHandOff h s).br = s.br := rfl
@[simp] theorem recordHandOff_inFlight (h : HandOff) (s : State) : (recordHandOff h s).inFlight = s.inFlight := rfl
@[simp] theorem recordHandOff_host (h : HandOff) (s : State) : (recordHandOff h s).host = s.host := rfl
@[simp] theorem recordHandOff_txAnswers (h : HandOff) (s : State) :
    (recordHandOff h s).txAnswers = s.txAnswers := rfl
@[simp] theorem recordHandOff_txDraws (h : HandOff) (s : State) : (recordHandOff h s).txDraws = s.txDraws := rfl
@[simp] theorem recordHandOff_responses (h : HandOff) (s : State) : (recordHandOff h s).responses = s.responses := rfl
@[simp] theorem recordHandOff_handOffs (h : HandOff) (s : State) :
    (recordHandOff h s).handOffs = s.handOffs ++ [h] := rfl

@[simp] theorem awaitTransmitter_br (h : HandOff) (s : State) : (awaitTransmitter h s).br = s.br := rfl
@[simp] theorem awaitTransmitter_inFlight (h : HandOff) (s : State) : (awaitTransmitter h s).inFlight = some h := rfl
@[simp] theorem awaitTransmitter_host (h : HandOff) (s : State) : (awaitTransmitter h s).host = s.host := rfl
@[simp] theorem awaitTransmitter_txAnswers (h : HandOff) (s : State) :
    (awaitTransmitter h s).txAnswers = s.txAnswers := rfl
@[simp] theorem awaitTransmitter_txDraws (h : HandOff) (s : State) :
    (awaitTransmitter h s).txDraws = s.txDraws := rfl
@[simp] theorem awaitTransmitter_responses (h : HandOff) (s : State) :
    (awaitTransmitter h s).responses = s.responses := rfl
@[simp] theorem awaitTransmitter_handOffs (h : HandOff) (s : State) :
    (awaitTransmitter h s).handOffs = s.handOffs := rfl

theorem useOutcome_of_answer {s : State} {o : TxOutcome} {rest : List TxOutcome} (h : s.txAnswers = o :: rest) :
    useOutcome s = { s with txAnswers := rest } := by simp [useOutcome, h]

theorem useOutcome_of_draw {s : State} (h : s.txAnswers = []) :
    useOutcome s = { s with txDraws := s.txDraws + 1 } := by simp [useOutcome, h]

@[simp] theorem useOutcome_br (s : State) : (useOutcome s).br = s.br := by unfold useOutcome; split <;> rfl
@[simp] theorem useOutcome_inFlight (s : State) : (useOutcome s).inFlight = s.inFlight := by
  unfold useOutcome; split <;> rfl
@[simp] theorem useOutcome_host (s : State) : (useOutcome s).host = s.host := by unfold useOutcome; split <;> rfl
@[simp] theorem useOutcome_txAnswers (s : State) : (useOutcome s).txAnswers = s.txAnswers.tail := by
  unfold useOutcome; split <;> simp_all
@[simp] theorem useOutcome_responses (s : State) : (useOutcome s).responses = s.responses := by
  unfold useOutcome; split <;> rfl
@[simp] theorem useOutcome_handOffs (s : State) : (useOutcome s).handOffs = s.handOffs := by
  unfold useOutcome; split <;> rfl

@[simp] theorem takeEvent_br (s : State) : (takeEvent s).br = s.br := rfl
@[simp] theorem takeEvent_inFlight (s : State) : (takeEvent s).inFlight = s.inFlight := rfl
@[simp] theorem takeEvent_host (s : State) : (takeEvent s).host = s.host.tail := rfl
@[simp] theorem takeEvent_txAnswers (s : State) : (takeEvent s).txAnswers = s.txAnswers := rfl
@[simp] theorem takeEvent_txDraws (s : State) : (takeEvent s).txDraws = s.txDraws := rfl
@[simp] theorem takeEvent_responses (s : State) : (takeEvent s).responses = s.responses := rfl
@[simp] theorem takeEvent_handOffs (s : State) : (takeEvent s).handOffs = s.handOffs := rfl

@[simp] theorem resetCore_br (s : State) : (resetCore s).br = resetBrightness := rfl
@[simp] theorem resetCore_inFlight (s : State) : (resetCore s).inFlight = none := rfl
@[simp] theorem resetCore_host (s : State) : (resetCore s).host = s.host := rfl
@[simp] theorem resetCore_txAnswers (s : State) : (resetCore s).txAnswers = s.txAnswers := rfl
@[simp] theorem resetCore_txDraws (s : State) : (resetCore s).txDraws = s.txDraws := rfl
@[simp] theorem resetCore_responses (s : State) : (resetCore s).responses = s.responses := rfl
@[simp] theorem resetCore_handOffs (s : State) : (resetCore s).handOffs = s.handOffs := rfl

@[simp] theorem presentCommand_br (w : CommandWord) (s : State) : (presentCommand w s).br = s.br := rfl
@[simp] theorem presentCommand_inFlight (w : CommandWord) (s : State) : (presentCommand w s).inFlight = none := rfl
@[simp] theorem presentCommand_host (w : CommandWord) (s : State) :
    (presentCommand w s).host = .issue w :: s.host := rfl
@[simp] theorem presentCommand_txAnswers (w : CommandWord) (s : State) :
    (presentCommand w s).txAnswers = s.txAnswers := rfl
@[simp] theorem presentCommand_txDraws (w : CommandWord) (s : State) :
    (presentCommand w s).txDraws = s.txDraws := rfl
@[simp] theorem presentCommand_responses (w : CommandWord) (s : State) :
    (presentCommand w s).responses = s.responses := rfl
@[simp] theorem presentCommand_handOffs (w : CommandWord) (s : State) :
    (presentCommand w s).handOffs = s.handOffs := rfl

end Sys2Proof.Machine
end

