-- ==== Sys2Proof/Laws/Ops.lean ====
section
/-! SUPPORT. What each shared operation, the meaning of a command and a step can do, said once. -/

namespace Sys2Proof.Machine

theorem nextOutcome_of_answer {s : State} {o : TxOutcome} {rest : List TxOutcome} (h : s.txAnswers = o :: rest) :
    nextOutcome s = o := by simp [nextOutcome, h]

theorem nextOutcome_of_draw {s : State} (h : s.txAnswers = []) : nextOutcome s = Config.txOutcome s.txDraws := by
  simp [nextOutcome, h]

/-- Everything a hand-off can do: the three ways of R96. -/
theorem transmit_cases (f : Frame) (s : State) :
    (nextOutcome s = .ok ∧
      transmit f s = respond .ok .none (recordHandOff (wholeHandOff f) (useOutcome s))) ∨
    (∃ info, nextOutcome s = .fail info ∧
      transmit f s = respond .txFail (.info info) (recordHandOff (wholeHandOff f) (useOutcome s))) ∨
    (nextOutcome s = .noReturn ∧ transmit f s = awaitTransmitter (wholeHandOff f) (useOutcome s)) := by
  unfold transmit
  split <;> simp_all

@[simp] theorem transmit_br (f : Frame) (s : State) : (transmit f s).br = s.br := by
  rcases transmit_cases f s with ⟨-, h⟩ | ⟨_, -, h⟩ | ⟨-, h⟩ <;> simp [h]

@[simp] theorem transmit_host (f : Frame) (s : State) : (transmit f s).host = s.host := by
  rcases transmit_cases f s with ⟨-, h⟩ | ⟨_, -, h⟩ | ⟨-, h⟩ <;> simp [h]

/-- Everything the meaning of a command can do: an OK response with no hand-off, the register write with its OK
response, or one hand-off. -/
theorem exec_cases (i : Instr) (s : State) :
    (∃ p, exec i s = .next (respond .ok p s)) ∨
    (∃ v, i = .setBrightness v ∧ exec i s = .next (respond .ok .none (writeBr (low8 v) s))) ∨
    (∃ f, handOffFrame i s.br = some f ∧ exec i s = .next (transmit f s)) := by
  cases i with
  | pack r g b => exact .inl ⟨_, rfl⟩
  | unpack c => exact .inl ⟨_, rfl⟩
  | fromHsl h sa l => exact .inl ⟨_, rfl⟩
  | scale c br => exact .inl ⟨_, rfl⟩
  | buildFrame c => exact .inl ⟨_, rfl⟩
  | buildClear => exact .inl ⟨_, rfl⟩
  | setBrightness v => exact .inr (.inl ⟨v, rfl, rfl⟩)
  | getBrightness => exact .inl ⟨_, rfl⟩
  | showColor c => exact .inr (.inr ⟨_, rfl, rfl⟩)
  | clear => exact .inr (.inr ⟨_, rfl, rfl⟩)

/-- The port hands a command to the core exactly when the core is ready and the host issues a word that decodes. -/
theorem accept_eq_perform_iff {s : State} {i : Instr} {t : State} : accept s = .perform i t ↔
    ∃ w rest, s.host = .issue w :: rest ∧ s.inFlight = none ∧ decode w = .instr i ∧ t = takeEvent s := by
  constructor
  · intro h
    unfold accept at h
    split at h <;> (try split at h) <;> (try split at h) <;> simp_all
  · rintro ⟨w, rest, hh, hf, hd, rfl⟩
    simp [accept, hh, hf, hd]

/-- A reset, whatever the core is doing: BR and readiness are reset, and only the hand-off record may grow. -/
theorem resetNow_cases (e : HandOffExtent) (s : State) :
    (s.inFlight = none ∧ resetNow e s = resetCore s) ∨
    (∃ h, s.inFlight = some h ∧
      resetNow e s = resetCore { s with handOffs := s.handOffs ++ abandonedHandOff h.frame e }) := by
  unfold resetNow
  split <;> simp_all

/-- An abandoned command: as a reset, with the hand-off record grown by what was let through. -/
theorem abandon_cases (i : Instr) (e : HandOffExtent) (s : State) :
    (handOffFrame i s.br = none ∧ abandon i e s = resetCore s) ∨
    (∃ f, handOffFrame i s.br = some f ∧
      abandon i e s = resetCore { s with handOffs := s.handOffs ++ abandonedHandOff f e }) := by
  unfold abandon
  split <;> simp_all

/-- Everything a step can do when it goes on. -/
theorem step_next_cases {s t : State} (h : step s = .next t) :
    t = s ∨
    (∃ w rest i, s.host = .issue w :: rest ∧ s.inFlight = none ∧ decode w = .instr i ∧
      exec i (takeEvent s) = .next t) ∨
    (∃ e rest, s.host = .reset e :: rest ∧ t = resetNow e (takeEvent s)) ∨
    (∃ w e rest i, s.host = .resetDuring w e :: rest ∧ s.inFlight = none ∧ decode w = .instr i ∧
      t = abandon i e (takeEvent s)) := by
  unfold step accept at h
  split at h
  · rename_i r hr
    split at hr <;> (try split at hr) <;> (try split at hr) <;> simp_all [rejectOpcode]
  · rename_i i u hr
    obtain ⟨w, rest, hw, hf, hd, rfl⟩ := accept_eq_perform_iff.mp hr
    exact .inr (.inl ⟨w, rest, i, hw, hf, hd, h⟩)

end Sys2Proof.Machine
end

