-- ==== Sys2Proof/Laws/PerInstr.lean ====
section
/-! SUPPORT. Facts said of every command, one lemma a constructor. -/

namespace Sys2Proof.Laws.EncodedOpcode

/-- The OP field of a command's encoding is the opcode of its mnemonic (R43). -/
def Statement (i : Instr) : Prop := opField (encode i) = i.mnemonic.opcode

theorem pack (r g b : Int) : Statement (.pack r g b) := opField_commandWord ..
theorem unpack (c : Color) : Statement (.unpack c) := opField_commandWord ..
theorem fromHsl (h s l : Int) : Statement (.fromHsl h s l) := opField_commandWord ..
theorem scale (c : Color) (b : Byte) : Statement (.scale c b) := opField_commandWord ..
theorem buildFrame (c : Color) : Statement (.buildFrame c) := opField_commandWord ..
theorem buildClear : Statement .buildClear := opField_commandWord ..
theorem setBrightness (v : Int) : Statement (.setBrightness v) := opField_commandWord ..
theorem getBrightness : Statement .getBrightness := opField_commandWord ..
theorem showColor (c : Color) : Statement (.showColor c) := opField_commandWord ..
theorem clear : Statement .clear := opField_commandWord ..

end Sys2Proof.Laws.EncodedOpcode
end

