-- ==== Sys2Proof/Laws/Run.lean ====
section
/-! SUPPORT. How a run of several steps unfolds, one step at a time. -/

namespace Sys2Proof

open Sys2Proof.Machine

@[simp] theorem runSteps_zero (s : State) : runSteps 0 s = .next s := rfl

/-- A step that goes on is followed by the rest of the run. -/
theorem runSteps_succ_of_next {s t : State} (h : step s = .next t) (k : Nat) : runSteps (k + 1) s = runSteps k t := by
  have h' : core.step s = .next t := h
  have e := Host.Core.run.eq_def core (k + 1) s
  simp only [h'] at e
  exact e

/-- A state that a step leaves as it is stays so for any number of steps. -/
theorem runSteps_of_fixed {s : State} (h : step s = .next s) (k : Nat) : runSteps k s = .next s := by
  induction k with
  | zero => rfl
  | succ k ih => rw [runSteps_succ_of_next h, ih]

end Sys2Proof
end

