-- ==== Sys2Proof/Tests/Slice0.lean ====
section
/-! SUPPORT. Tests with results from 95_test_vectors.md or worked by hand from the rule named, and, for each statement
with hypotheses, a state and operands that meet them. -/

namespace Sys2Proof.Tests

open Sys2Proof Sys2Proof.Machine

/-! ### Well-formedness: one ill-formed term for each check (R10) -/

theorem test_wf_pack_limits : wellFormed (.pack (-2147483648) 2147483647 0) = true := by decide
theorem test_wf_pack_red : wellFormed (.pack 2147483648 0 0) = false := by decide
theorem test_wf_pack_green : wellFormed (.pack 0 (-2147483649) 0) = false := by decide
theorem test_wf_pack_blue : wellFormed (.pack 0 0 2147483648) = false := by decide
theorem test_wf_hsl_hue : wellFormed (.fromHsl (-2147483649) 0 0) = false := by decide
theorem test_wf_hsl_saturation : wellFormed (.fromHsl 0 2147483648 0) = false := by decide
theorem test_wf_hsl_luminosity : wellFormed (.fromHsl 0 0 (-2147483649)) = false := by decide
theorem test_wf_set_value : wellFormed (.setBrightness 2147483648) = false := by decide

/-! ### Decoding: a word for each command, written out from R42 to R44; the ignored bits are set where there are any -/

theorem test_decode_pack :
    decode 0x1_FFFFFF00_FFFFFF01_FFFFFF7F = .instr (.pack (-256) (-255) (-129)) := by decide
theorem test_decode_unpack : decode 0x2_FF0A141E_FFFFFFFF_FFFFFFFF = .instr (.unpack 0x0A141E) := by decide
theorem test_decode_fromHsl : decode 0x3_FFFFFFF6_00000063_00000032 = .instr (.fromHsl (-10) 99 50) := by decide
theorem test_decode_scale : decode 0x4_AB00FFFF_000001FF_FFFFFFFF = .instr (.scale 0x00FFFF 0xFF) := by decide
theorem test_decode_buildFrame : decode 0x5_AB0A141E_00000000_00000001 = .instr (.buildFrame 0x0A141E) := by decide
theorem test_decode_buildClear : decode 0x6_00000001_00000002_00000003 = .instr .buildClear := by decide
theorem test_decode_setBrightness : decode 0x7_0000012C_FFFFFFFF_00000000 = .instr (.setBrightness 300) := by decide
theorem test_decode_getBrightness : decode 0x8_FFFFFFFF_00000000_00000000 = .instr .getBrightness := by decide
theorem test_decode_showColor : decode 0x9_FFFE012B_00000000_00000000 = .instr (.showColor 0xFE012B) := by decide
theorem test_decode_clear : decode 0xA_00000000_00000000_FFFFFFFF = .instr .clear := by decide
theorem test_decode_unassigned : decode 0xB_00000000_00000000_00000000 = .unassigned 0xB := by decide
theorem test_encode_pack : encode (.pack 256 511 (-1)) = 0x1_00000100_000001FF_FFFFFFFF := by decide
theorem test_table_word : decodeTableWord 8 0x4 = some (.scale 0 0) ∧ decodeTableWord 8 0xC = none := by decide

/-! ### One step each -/

/-- A ready core with BR, the transmitter's answers and one word at the port. -/
def coreWith (br : Byte) (answers : List TxOutcome) (w : CommandWord) : State :=
  { State.reset with br := br, txAnswers := answers, host := [.issue w] }

/-- The responses after one step, none if it stops. -/
def responsesAfter (s : State) : List Response :=
  match step s with
  | .next t => t.responses
  | .fault _ => []
  | .refused _ => []

/-- The bytes handed off and BR after one step, nothing if it stops. -/
def handOffsAndBrAfter (s : State) : Option (List (List Byte) × Byte) :=
  match step s with
  | .next t => some ((allHandOffs t).map HandOff.bytes, t.br)
  | .fault _ => none
  | .refused _ => none

/-- Whether a step goes on. -/
def goesOn (s : State) : Bool :=
  match step s with
  | .next _ => true
  | .fault _ => false
  | .refused _ => false

theorem test_pack_wraps :
    responsesAfter (coreWith 128 [] 0x1_00000100_000001FF_FFFFFFFF) = [⟨.ok, .color 0x00FFFF⟩] := by decide
theorem test_pack_extremes :
    responsesAfter (coreWith 128 [] 0x1_7FFFFFFF_80000000_00001234) = [⟨.ok, .color 0xFF0034⟩] := by decide
theorem test_unpack :
    responsesAfter (coreWith 128 [] 0x2_FF0A141E_00000000_00000000) = [⟨.ok, .channels ⟨10, 20, 30⟩⟩] := by decide
theorem test_hsl_negative_hue :
    responsesAfter (coreWith 128 [] 0x3_FFFFFFF6_00000063_00000032) = [⟨.ok, .color 0xFE012B⟩] := by decide
theorem test_hsl_two_divisions :
    responsesAfter (coreWith 128 [] 0x3_0000002D_00000050_0000004B) = [⟨.ok, .color 0xF3D98D⟩] := by decide
theorem test_scale_rounds_down :
    responsesAfter (coreWith 128 [] 0x4_00FF8001_0000007F_00000000) = [⟨.ok, .color 0x7E3F00⟩] := by decide
theorem test_scale_full_is_identity :
    responsesAfter (coreWith 128 [] 0x4_00FFFFFF_000001FF_00000000) = [⟨.ok, .color 0xFFFFFF⟩] := by decide
theorem test_build_frame_order : responsesAfter (coreWith 128 [] 0x5_00123456_00000000_00000000) =
    [⟨.ok, .frame #v[52, 18, 86, 52, 18, 86, 52, 18, 86, 52, 18, 86]⟩] := by decide
theorem test_build_clear : responsesAfter (coreWith 128 [] 0x6_00000000_00000000_00000000) =
    [⟨.ok, .frame #v[0, 0, 0, 0, 0, 0, 0, 0, 0, 0, 0, 0]⟩] := by decide
theorem test_set_brightness_truncates :
    handOffsAndBrAfter (coreWith 128 [] 0x7_0000012C_00000000_00000000) = some ([], 44) := by decide
theorem test_get_brightness :
    responsesAfter (coreWith 44 [] 0x8_00000000_00000000_00000000) = [⟨.ok, .brightness 44⟩] := by decide
theorem test_show_color_failure_passes_info :
    responsesAfter (coreWith 44 [.fail ⟨7⟩] 0x9_0001FE01_00000000_00000000) = [⟨.txFail, .info ⟨7⟩⟩] := by decide
theorem test_show_color_scales_and_reorders :
    handOffsAndBrAfter (coreWith 128 [.ok] 0x9_000A141E_00000000_00000000) =
      some ([[10, 5, 15, 10, 5, 15, 10, 5, 15, 10, 5, 15]], 128) := by decide
theorem test_clear_ignores_brightness :
    handOffsAndBrAfter (coreWith 200 [.noReturn] 0xA_00000000_00000000_00000000) =
      some ([[0, 0, 0, 0, 0, 0, 0, 0, 0, 0, 0, 0]], 200) := by decide
theorem test_clear_no_return_has_no_response :
    responsesAfter (coreWith 200 [.noReturn] 0xA_00000000_00000000_00000000) = [] := by decide
theorem test_illegal_opcode_faults :
    step (coreWith 128 [] 0xF_00000000_00000000_00000000) = .fault (.illegalOpcode 0xF ⟨.illegal, .none⟩) := rfl
theorem test_every_table_row_runs_after_reset :
    ∀ op ∈ [1, 2, 3, 4, 5, 6, 7, 8, 9, 10], goesOn (State.reset.withFetchWord 8 op) = true := by decide

/-! ### The assembler (R46 and the listings of 95_test_vectors.md) -/

theorem test_assemble_pack :
    assemble "PACK 10, 20, 30".toList = some 0x1_0000000A_00000014_0000001E := by decide
theorem test_assemble_hsl_negative :
    (assemble "FROM_HSL -10, 99, 50".toList).map listingText = some "3:FFFFFFF6:00000063:00000032".toList := by decide
theorem test_assemble_refuses_fraction : assemble "SET_BRIGHTNESS 1.5".toList = none := by decide
theorem test_assemble_refuses_out_of_range : assemble "SET_BRIGHTNESS 2147483648".toList = none := by decide
theorem test_assemble_refuses_extra_operand : assemble "CLEAR 1".toList = none := by decide

/-! ### Witnesses: the hypotheses of each statement can be met -/

/-- CLEAR at the port of a ready core. -/
def clearWord : CommandWord := 0xA_00000000_00000000_00000000

/-- SET_BRIGHTNESS 300. -/
def setWord : CommandWord := 0x7_0000012C_00000000_00000000

/-- A core that waits for a transmitter that has not returned. -/
def waitingCore : State := { State.reset with inFlight := some ⟨buildClearFrame, Config.pin, none⟩ }

theorem witness_DecodeOfEncodeIsTheCommand : wellFormed (.fromHsl (-2147483648) 99 2147483647) = true := by decide
theorem witness_EncodeOfDecodeKeepsReadBits :
    decode 0x4_AB00FFFF_000001FF_FFFFFFFF = .instr (.scale 0x00FFFF 0xFF) := test_decode_scale
theorem witness_CommandWordLayout :
    opField 0xA_00000000_00000000_00000000 = opField 0xA_FFFFFFFF_00000000_00000000 ∧
    decode clearWord = .instr .clear := by decide
theorem witness_AssembledCommandDecodes_patterns :
    ([7, 9] : List Word).length = writtenCount .scale ∧ ([7, 9] : List Word).length ≠ writtenCount .clear := by decide
theorem witness_AssembledCommandDecodes_text :
    (∀ p ∈ [("-10".toList, (0xFFFFFFF6 : Word)), ("0xfF".toList, (0xFF : Word))], WritesOperand p.1 p.2) ∧
    [("-10".toList, (0xFFFFFFF6 : Word)), ("0xfF".toList, 0xFF)].length = writtenCount .scale ∧
    [("-10".toList, (0xFFFFFFF6 : Word)), ("0xfF".toList, 0xFF)].length ≠ writtenCount .pack := by
  refine ⟨?_, by decide, by decide⟩
  intro p hp
  simp only [List.mem_cons, List.not_mem_nil, or_false] at hp
  rcases hp with rfl | rfl
  · exact .inr (.inl ⟨[('1', 1), ('0', 0)], by decide, by decide, by decide, by decide⟩)
  · exact .inr (.inr ⟨[('f', 15), ('F', 15)], by decide, by decide, by decide, by decide⟩)
theorem witness_AssembledCommandDecodes_refused_text :
    (∀ t ∈ ["1.5".toList], t ≠ [] ∧ ',' ∉ t ∧ ' ' ∉ t) ∧ ∀ v, ¬ WritesOperand "1.5".toList v := by
  refine ⟨by decide, ?_⟩
  rintro v (⟨ds, -, hd, ht, -⟩ | ⟨ds, -, -, ht, -⟩ | ⟨ds, -, -, ht, -⟩)
  · have hm : '.' ∈ ds.map Prod.fst := ht ▸ by decide
    obtain ⟨d, hd', he⟩ := List.mem_map.mp hm
    exact absurd (List.mem_map.mpr ⟨d, hd d hd', he⟩ : '.' ∈ decimalDigits.map Prod.fst) (by decide)
  · exact absurd (congrArg List.head? ht) (by simp)
  · exact absurd (congrArg List.head? ht) (by simp)
theorem witness_OperandTextReadsAsWritten_decimal_ends :
    (∀ d ∈ [('2', 2), ('1', 1), ('4', 4), ('7', 7), ('4', 4), ('8', 8), ('3', 3), ('6', 6), ('4', 4), ('8', 8)],
      d ∈ decimalDigits) ∧
    readOperand "2147483647".toList = some 0x7FFFFFFF ∧ readOperand "2147483648".toList = none ∧
    readOperand "-2147483648".toList = some 0x80000000 ∧ readOperand "-2147483649".toList = none := by decide
theorem witness_OperandTextReadsAsWritten_hexadecimal_ends :
    (∀ d ∈ [('F', 15), ('f', 15)], d ∈ hexDigits) ∧ readOperand "0xFFFFFFFF".toList = some 0xFFFFFFFF ∧
    readOperand "0x100000000".toList = none := by decide
theorem witness_StepPerformsDecodedCommand : Ready (coreWith 128 [] clearWord) ∧
    (coreWith 128 [] clearWord).host = .issue clearWord :: [] ∧ decode clearWord = .instr .clear := ⟨rfl, rfl, rfl⟩
theorem witness_PresentedTableWordRuns : decodeTableWord 8 0xA = some .clear := by decide
theorem witness_UnassignedOpcodeFaults_zero : Ready (coreWith 128 [] 0) ∧
    (coreWith 128 [] 0).host = .issue 0 :: [] ∧ (opField 0).toNat = 0 := ⟨rfl, rfl, rfl⟩
theorem witness_UnassignedOpcodeFaults_above : Ready (coreWith 128 [] 0xB_00000000_00000000_00000000) ∧
    (coreWith 128 [] 0xB_00000000_00000000_00000000).host = .issue 0xB_00000000_00000000_00000000 :: [] ∧
    11 ≤ (opField 0xB_00000000_00000000_00000000).toNat := ⟨rfl, rfl, by decide⟩
theorem witness_StepStopsOnlyAsListed_refusal :
    ∃ s w rest, s.host = .overlap w :: rest ∧ step s = .refused .overlappedCommand :=
  ⟨{ State.reset with host := [.overlap clearWord] }, clearWord, [], rfl, rfl⟩
theorem witness_StepStopsOnlyAsListed_reset_during_unassigned : ∃ s w rest, Ready s ∧
    (∃ e, s.host = .resetDuring w e :: rest) ∧ 11 ≤ (opField w).toNat ∧
    step s = .fault (.illegalOpcode (opField w) ⟨.illegal, .none⟩) :=
  ⟨{ State.reset with host := [.resetDuring 0xF_00000000_00000000_00000000 .notMade] },
    0xF_00000000_00000000_00000000, [], rfl, ⟨_, rfl⟩, by decide, rfl⟩
theorem witness_clamped_percents : ∃ s l : Int, 0 ≤ s ∧ s ≤ 99 ∧ 0 ≤ l ∧ l ≤ 99 ∧ (s = 0 ∨ l = 0) :=
  ⟨99, 0, by decide⟩
theorem witness_ChromaRange_zero_both_ways : chroma 1 19 = 0 ∧ chroma 1 20 = 1 := by decide
theorem witness_SectorRanges_ends :
    (0 ≤ (0 : Int) ∧ (0 : Int) ≤ 359) ∧ (0 ≤ (359 : Int) ∧ (359 : Int) ≤ 359) ∧ subPosition 359 = 251 := by decide
theorem witness_SecondComponentBySector_even_start : (120 : Int) % 60 = 0 ∧ hueSector 120 % 2 = 0 := by decide
theorem witness_SecondComponentBySector_odd_start : (180 : Int) % 60 = 0 ∧ hueSector 180 % 2 = 1 := by decide
theorem witness_SecondComponentAtMostChroma :
    ∃ h s l : Int, 0 ≤ h ∧ h ≤ 359 ∧ 0 ≤ s ∧ s ≤ 99 ∧ 0 ≤ l ∧ l ≤ 99 := ⟨359, 99, 50, by decide⟩
theorem witness_OffsetDividendsNonNegative : ∃ s l : Int, 0 ≤ s ∧ s ≤ 99 ∧ 0 ≤ l ∧ l ≤ 99 := ⟨99, 99, by decide⟩
theorem witness_FromHslChannelsNeverWrap_ends :
    (79 ≤ (79 : Int) ∧ (79 : Int) ≤ 97 ∧ hslColor 0 79 99 = 0xFFFBFB) ∧
    (79 ≤ (97 : Int) ∧ (97 : Int) ≤ 97 ∧ hslColor 0 97 99 = 0xFFFBFB) := by decide
theorem witness_CombinedDivisionSameOffset : ∃ s l : Int, 0 ≤ s ∧ s ≤ 99 ∧ 0 ≤ l ∧ l ≤ 99 := ⟨1, 20, by decide⟩
theorem witness_FromHslGreyWithoutChroma : ((0 : Int) ≤ 0 ∨ (50 : Int) ≤ 0) ∧ ((99 : Int) ≤ 0 ∨ (-1 : Int) ≤ 0) := by
  decide
theorem witness_ScaleResult : (255 : Byte) = 255 ∧ (254 : Byte) ≠ 255 := by decide
theorem witness_ScaleNeverRaisesChannel : (254 : Byte) ≠ 255 := by decide
theorem witness_ScaleMonotone : redNat 0x010000 ≤ redNat 0x020000 ∧ (254 : Byte).toNat ≤ (255 : Byte).toNat := by decide
theorem witness_BuildClearIsBlackFrame : redNat 0 = 0 ∧ greenNat 0 = 0 ∧ blueNat 0 = 0 := by decide
theorem witness_ShowColorIsScaledFrame : ∃ t, exec (.showColor 0x0A141E) State.reset = .next t := ⟨_, rfl⟩
theorem witness_NextCommandSeesNewBrightness :
    ∃ (s : State) (w w' : CommandWord) (b : Byte), Ready s ∧ s.host = .issue w :: .issue w' :: [] ∧ opField w = 0x7 ∧
      decode w' = .instr .getBrightness ∧ (b.toNat : Int) = (opaField w).toInt % 256 :=
  ⟨{ State.reset with host := [.issue setWord, .issue 0x8_00000000_00000000_00000000] }, setWord,
    0x8_00000000_00000000_00000000, 44, rfl, rfl, by decide, by decide, by decide⟩
theorem witness_EightCommandsAlwaysAnswerOk : handsOffFrame (Instr.setBrightness 300).mnemonic = false ∧
    handsOffFrame Instr.getBrightness.mnemonic = false := by decide
theorem witness_ExactlyOneHandOff : Ready State.reset ∧ handsOffFrame Instr.clear.mnemonic = true ∧
    ∃ t, exec .clear State.reset = .next t := ⟨rfl, rfl, _, rfl⟩
theorem witness_ExactlyOneHandOff_no_return : ∃ s, Ready s ∧ s.host = [.issue setWord, .reset .whole] ∧
    ∃ t, exec (.showColor 0x0A141E) s = .next t ∧ t.inFlight ≠ none :=
  ⟨{ State.reset with host := [.issue setWord, .reset .whole], txAnswers := [.noReturn] }, rfl, rfl, _, rfl,
    by decide⟩
theorem witness_OnlySetBrightnessWritesBr :
    ∃ t, exec (.setBrightness 300) State.reset = .next t ∧ t.br ≠ State.reset.br := ⟨_, rfl, by decide⟩
theorem witness_StepChangesBrOnlyBySetOrReset_set :
    ∃ t, step (coreWith 128 [] setWord) = .next t ∧ t.br ≠ (coreWith 128 [] setWord).br := ⟨_, rfl, by decide⟩
theorem witness_StepChangesBrOnlyBySetOrReset_reset : ∃ t,
    step { State.reset with br := 7, host := [.reset .notMade] } = .next t ∧ t.br ≠ 7 := ⟨_, rfl, by decide⟩
theorem witness_OnlyShowAndGetReadBr : Instr.clear.mnemonic ≠ .showColor ∧ Instr.clear.mnemonic ≠ .getBrightness ∧
    (∃ t, exec .clear State.reset = .next t) ∧ ∃ u, exec .clear { State.reset with br := 0 } = .next u :=
  ⟨by decide, by decide, ⟨_, rfl⟩, ⟨_, rfl⟩⟩
theorem witness_ReissueIsIdempotent : handsOffFrame (Instr.setBrightness 300).mnemonic = false ∧
    ∃ t, exec (.setBrightness 300) State.reset = .next t := ⟨rfl, _, rfl⟩
theorem witness_ResponseShapeByCommand : ∃ t, exec (.unpack 0x0A141E) State.reset = .next t := ⟨_, rfl⟩
theorem witness_FailureLeavesCoreAsAfterOk : handsOffFrame Instr.clear.mnemonic = true ∧
    (∃ t, exec .clear { State.reset with txAnswers := [.ok] } = .next t) ∧
    ∃ u, exec .clear { State.reset with txAnswers := [.fail ⟨7⟩] } = .next u := ⟨rfl, ⟨_, rfl⟩, ⟨_, rfl⟩⟩
theorem witness_NoReturnStaysBusy : handsOffFrame Instr.clear.mnemonic = true ∧
    nextOutcome (coreWith 128 [.noReturn] setWord) = .noReturn ∧
    (∀ e ∈ (coreWith 128 [.noReturn] setWord).host, ∃ w, e = .issue w) := ⟨rfl, rfl, by simp [coreWith]⟩
theorem witness_ResetDuringCommandAbandons : ∀ e : HandOffExtent,
    Ready { State.reset with host := [.resetDuring clearWord e] } ∧
    ({ State.reset with host := [.resetDuring clearWord e] } : State).host = .resetDuring clearWord e :: [] ∧
    decode clearWord = .instr .clear := fun _ => ⟨rfl, rfl, rfl⟩
theorem witness_ResetDuringCommandAbandons_show : ∃ f,
    decode 0x9_000A141E_00000000_00000000 = .instr (.showColor 0x0A141E) ∧ f = showFrame 0x0A141E 128 :=
  ⟨_, by decide, rfl⟩
theorem witness_ResetMakesReady : ({ waitingCore with host := [.reset (.cutShort 11)] } : State).host =
    .reset (.cutShort 11) :: [] ∧ ∃ h, waitingCore.inFlight = some h := ⟨rfl, _, rfl⟩
theorem witness_StepKeepsCoreInv : CoreInv { State.reset with host := [.issue clearWord] } ∧
    ∃ t, step { State.reset with host := [.issue clearWord] } = .next t :=
  ⟨⟨by simp [State.reset], by simp [State.reset], by simp [State.reset]⟩, _, rfl⟩

/-- Two commands to a ready core whose one hand-off fails. -/
def serialisedCore : State :=
  { State.reset with host := [clearWord, setWord].map .issue, txAnswers := [.fail ⟨7⟩, .ok] }

theorem witness_SerialisedRunEnds : Ready serialisedCore ∧ serialisedCore.host = [clearWord, setWord].map .issue ∧
    (∀ w ∈ [clearWord, setWord], assignedOpcode (opField w) = true) ∧
    (∀ o ∈ serialisedCore.txAnswers, o.returns = true) ∧
    [clearWord, setWord].length ≤ serialisedCore.txAnswers.length := by
  refine ⟨rfl, rfl, ?_, ?_, by decide⟩
  · simp [clearWord, setWord, opField, assignedOpcode]
  · simp [serialisedCore, TxOutcome.returns]

end Sys2Proof.Tests
end

section
/-! What a command can do to BR (R17, R82). -/

namespace Sys2Proof.Machine

/-- The frame of BR: an OK response and a hand-off keep it, however the transmitter answers. -/
theorem exec_next_br_cases {i : Instr} {s t : State} (h : exec i s = .next t) :
    t.br = s.br ∨ ∃ v, i = .setBrightness v ∧ t.br = low8 v := by
  obtain ⟨p, he⟩ | ⟨v, rfl, he⟩ | ⟨f, -, he⟩ := exec_cases i s <;> cases he.symm.trans h
  · exact .inl (respond_br ..)
  · exact .inr ⟨v, rfl, rfl⟩
  · exact .inl (transmit_br ..)

/-- Settles O41: the only case of `exec_next_br_cases` in which BR can differ is a SET_BRIGHTNESS. -/
theorem onlySetBrightnessWritesBr : Obligations.OnlySetBrightnessWritesBr := by
  intro i s t h hbr
  obtain heq | ⟨v, hi, -⟩ := exec_next_br_cases h
  · exact absurd heq hbr
  · exact ⟨v, hi⟩

end Sys2Proof.Machine
end

section
/-! The command word as a number made of its four fields (R42). -/

namespace Sys2Proof

/-- Fields laid side by side add up, the upper one shifted by the width of the lower. -/
theorem toNat_append_eq_add {m n : Nat} (x : BitVec m) (y : BitVec n) :
    (x ++ y).toNat = x.toNat * 2 ^ n + y.toNat := by
  rw [BitVec.toNat_append, ← Nat.shiftLeft_add_eq_or_of_lt y.isLt, Nat.shiftLeft_eq]

theorem commandWord_toNat (op : Opcode) (a b c : Word) : (commandWord op a b c).toNat =
    op.toNat * 2 ^ 96 + a.toNat * 2 ^ 64 + b.toNat * 2 ^ 32 + c.toNat := by
  have h : (commandWord op a b c).toNat = (op ++ a ++ b ++ c).toNat := rfl
  rw [h, toNat_append_eq_add, toNat_append_eq_add, toNat_append_eq_add]
  omega

theorem opField_toNat (w : CommandWord) : (opField w).toNat = w.toNat / 2 ^ 96 % 2 ^ 4 := by
  rw [opField, BitVec.extractLsb'_toNat, Nat.shiftRight_eq_div_pow]

theorem opaField_toNat (w : CommandWord) : (opaField w).toNat = w.toNat / 2 ^ 64 % 2 ^ 32 := by
  rw [opaField, BitVec.extractLsb'_toNat, Nat.shiftRight_eq_div_pow]

theorem opbField_toNat (w : CommandWord) : (opbField w).toNat = w.toNat / 2 ^ 32 % 2 ^ 32 := by
  rw [opbField, BitVec.extractLsb'_toNat, Nat.shiftRight_eq_div_pow]

theorem opcField_toNat (w : CommandWord) : (opcField w).toNat = w.toNat % 2 ^ 32 := by
  rw [opcField, BitVec.extractLsb'_toNat, Nat.shiftRight_zero]

/-- The four fields leave no bit of the word out (R42). -/
theorem commandWord_of_fields (w : CommandWord) :
    commandWord (opField w) (opaField w) (opbField w) (opcField w) = w := by
  apply BitVec.eq_of_toNat_eq
  have := w.isLt
  rw [commandWord_toNat, opField_toNat, opaField_toNat, opbField_toNat, opcField_toNat]
  omega

/-- The mnemonic of a decoded word is the one its OP stands for (R42, R43): the operand fields do not enter. -/
theorem exists_decode_eq_instr_iff {w : CommandWord} {m : Mnemonic} :
    (∃ i, decode w = .instr i ∧ i.mnemonic = m) ↔ Mnemonic.ofOpcode (opField w) = some m := by
  constructor
  · rintro ⟨i, hd, rfl⟩
    obtain ⟨m, hm, rfl⟩ := decode_eq_instr_iff.mp hd
    rwa [readOperands_mnemonic]
  · intro hm
    exact ⟨_, decode_eq_instr_iff.mpr ⟨m, hm, rfl⟩, readOperands_mnemonic ..⟩

end Sys2Proof
end

section
/-! How the decoder reads the operand fields (R44). -/

namespace Sys2Proof

theorem colorOperand_eq_ofNat_mod (field : Word) : colorOperand field = BitVec.ofNat 24 (field.toNat % 2 ^ 24) := by
  apply BitVec.eq_of_toNat_eq
  rw [colorOperand, BitVec.extractLsb'_toNat, Nat.shiftRight_zero, BitVec.toNat_ofNat, Nat.mod_mod]

theorem brightnessOperand_eq_ofNat_mod (field : Word) :
    brightnessOperand field = BitVec.ofNat 8 (field.toNat % 2 ^ 8) := by
  apply BitVec.eq_of_toNat_eq
  rw [brightnessOperand, BitVec.extractLsb'_toNat, Nat.shiftRight_zero, BitVec.toNat_ofNat, Nat.mod_mod]

end Sys2Proof
end

section
/-! The layout of the command word and the operand table (30_encoding.md R42, R44). -/

namespace Sys2Proof

/-- Settles O3: the layout is `commandWord_toNat`, completeness is `commandWord_of_fields`, and selection by OP alone
is `exists_decode_eq_instr_iff`, whose right side depends on the OP field alone. -/
theorem commandWordLayout : Obligations.CommandWordLayout := by
  refine ⟨commandWord_toNat, commandWord_of_fields, fun w w' i hop hd => ?_⟩
  have hm := exists_decode_eq_instr_iff.mp ⟨i, hd, rfl⟩
  exact exists_decode_eq_instr_iff.mpr (hop ▸ hm)

/-- Settles O5: each row is `decode_commandWord` at the mnemonic whose opcode the row writes, with the operands of a
Color and of a brightness as numbers. -/
theorem operandFieldsAsTabled : Obligations.OperandFieldsAsTabled := by
  intro a b c
  simp only [← colorOperand_eq_ofNat_mod, ← brightnessOperand_eq_ofNat_mod]
  exact ⟨decode_commandWord .pack a b c, decode_commandWord .unpack a b c, decode_commandWord .fromHsl a b c,
    decode_commandWord .scale a b c, decode_commandWord .buildFrame a b c, decode_commandWord .buildClear a b c,
    decode_commandWord .setBrightness a b c, decode_commandWord .getBrightness a b c,
    decode_commandWord .showColor a b c, decode_commandWord .clear a b c⟩

end Sys2Proof
end

section
/-! What the ColorCodec commands do to the state (R48 to R50): the meaning of each is one OK response. -/

namespace Sys2Proof.Machine

theorem exec_pack (r g b : Int) (s : State) :
    exec (.pack r g b) s = .next (respond .ok (.color (packColor r g b)) s) := rfl

theorem exec_unpack (c : Color) (s : State) :
    exec (.unpack c) s = .next (respond .ok (.channels (unpackColor c)) s) := rfl

theorem exec_fromHsl (h s l : Int) (st : State) :
    exec (.fromHsl h s l) st = .next (respond .ok (.color (hslColor h s l)) st) := rfl

end Sys2Proof.Machine
end

section
/-! PACK and UNPACK on numbers (40_color_codec.md R48, R49). -/

namespace Sys2Proof.Machine

theorem packColor_toNat (r g b : Int) :
    ((packColor r g b).toNat : Int) = r % 256 * 65536 + g % 256 * 256 + b % 256 := by
  rw [packColor, packChannels_toNat, ← low8_toNat r, ← low8_toNat g, ← low8_toNat b]
  push_cast
  rfl

/-- Settles O12: the encoding is `decode_commandWord`, the frame is `exec_pack`, the number is `packColor_toNat`. -/
theorem packResult : Obligations.PackResult :=
  ⟨decode_commandWord .pack, fun r g b s => ⟨packColor r g b, exec_pack r g b s, packColor_toNat r g b⟩⟩

/-- Settles O13: the Color read is `colorOperand` as a number, the frame is `exec_unpack`, and each channel is a field
of the Color. -/
theorem unpackResult : Obligations.UnpackResult := by
  refine ⟨fun a b c => ?_, fun c s => ⟨unpackColor c, exec_unpack c s, redOf_toNat c, greenOf_toNat c, blueOf_toNat c⟩⟩
  rw [← colorOperand_eq_ofNat_mod]
  exact decode_commandWord .unpack a b c

end Sys2Proof.Machine
end

section
/-! The steps of FROM_HSL, each as the integer formula of its rule (40_color_codec.md R52 to R59). -/

namespace Sys2Proof.Machine

theorem absInt_eq_abs (v : Int) : absInt v = |v| := Int.natCast_natAbs v

theorem clampInt_eq_max_min {lo hi : Int} (h : lo ≤ hi) (v : Int) : clampInt v lo hi = max lo (min hi v) := by
  unfold clampInt
  split
  · omega
  · split <;> omega

/-- Step 3 (R53). -/
theorem clampPercent_eq_max_min (v : Int) : clampPercent v = max 0 (min 99 v) := clampInt_eq_max_min (by decide) v

/-- Clamping what is clamped changes nothing (R53). -/
theorem clampPercent_max_min (v : Int) : clampPercent (max 0 (min 99 v)) = clampPercent v := by
  rw [clampPercent_eq_max_min, clampPercent_eq_max_min]
  omega

/-- Step 4 (R54). -/
theorem chroma_eq_abs (s l : Int) : chroma s l = (100 - |2 * l - 100|) * s * 256 / 10000 := by
  rw [chroma, absInt_eq_abs]

/-- Step 5: a reduced hue lies in one of the six sectors (R52, R55). -/
theorem hueSector_reduceHue_range (h : Int) : 0 ≤ hueSector (reduceHue h) ∧ hueSector (reduceHue h) ≤ 5 := by
  unfold hueSector reduceHue
  omega

/-- Step 6 (R56). -/
theorem sectorTemp_eq_abs (h1 h2 : Int) : sectorTemp h1 h2 = |h1 % 2 * 256 + h2 - 256| := by
  rw [sectorTemp, absInt_eq_abs]
  rfl

/-- Step 9: the first dividend is 512 times the luminosity (R59). -/
theorem lightnessOffset_eq (l c : Int) : lightnessOffset l c = ((512 * l).tdiv 100 - c).tdiv 2 := by
  have hshl : shl (l * 2) 8 = 512 * l := by unfold shl; omega
  rw [lightnessOffset, hshl]

/-- Step 8: the sector table read by column, the sectors in which a channel is the largest and those in which it is the
second (R58). -/
theorem routeSector_eq_columns {h1 : Int} (h0 : 0 ≤ h1) (h5 : h1 ≤ 5) (c x : Int) : routeSector h1 c x =
    (if h1 = 0 ∨ h1 = 5 then c else if h1 = 1 ∨ h1 = 4 then x else 0,
      if h1 = 1 ∨ h1 = 2 then c else if h1 = 0 ∨ h1 = 3 then x else 0,
      if h1 = 3 ∨ h1 = 4 then c else if h1 = 2 ∨ h1 = 5 then x else 0) := by
  obtain rfl | rfl | rfl | rfl | rfl | rfl : h1 = 0 ∨ h1 = 1 ∨ h1 = 2 ∨ h1 = 3 ∨ h1 = 4 ∨ h1 = 5 := by omega
  all_goals rfl

end Sys2Proof.Machine
end

section
/-! FROM_HSL on numbers, and its clamped operands (40_color_codec.md R50, R53). -/

namespace Sys2Proof.Machine

/-- The color of the ten steps (R50): PACK of the routed components with the offset added, each step by its formula. -/
theorem hslColor_toNat (h s l : Int) : ((hslColor h s l).toNat : Int) = hslNumber h s l := by
  obtain ⟨h0, h5⟩ := hueSector_reduceHue_range h
  simp only [hslColor, packColor_toNat, routeSector_eq_columns h0 h5, clampPercent_eq_max_min, chroma_eq_abs,
    sectorTemp_eq_abs, lightnessOffset_eq]
  rfl

/-- Settles O15: the encoding is `decode_commandWord`, the frame is `exec_fromHsl`, the number is `hslColor_toNat`. -/
theorem fromHslResult : Obligations.FromHslResult :=
  ⟨decode_commandWord .fromHsl, fun h s l st => ⟨hslColor h s l, exec_fromHsl h s l st, hslColor_toNat h s l⟩⟩

/-- FROM_HSL sees saturation and luminosity only through their clamps (R53). -/
theorem hslColor_congr_clampPercent (h : Int) {s s' l l' : Int} (hs : clampPercent s = clampPercent s')
    (hl : clampPercent l = clampPercent l') : hslColor h s l = hslColor h s' l' := by
  simp only [hslColor, hs, hl]

theorem clampPercent_hundred : clampPercent 100 = clampPercent 99 := rfl

/-- Settles O17: operands with equal clamps give one color, and the response is the only thing that depends on it. -/
theorem fromHslClampsPercents : Obligations.FromHslClampsPercents := by
  intro h s l st
  simp only [exec_fromHsl]
  refine ⟨?_, ?_, ?_⟩
  · rw [hslColor_congr_clampPercent h (clampPercent_max_min s) (clampPercent_max_min l)]
  · rw [hslColor_congr_clampPercent h clampPercent_hundred rfl]
  · rw [hslColor_congr_clampPercent h rfl clampPercent_hundred]

end Sys2Proof.Machine
end

section
/-! SCALE on numbers (41_brightness_scaler.md R70 to R72). -/

namespace Sys2Proof.Machine

/-- The meaning of SCALE is one OK response (R70). -/
theorem exec_scale (c : Color) (br : Byte) (s : State) :
    exec (.scale c br) s = .next (respond .ok (.color (scaleColor c br)) s) := rfl

/-- The color below full brightness: each channel of the color multiplied on its own (R72). -/
theorem scaleColor_toNat_of_ne {br : Byte} (h : br ≠ 255) (c : Color) : (scaleColor c br).toNat =
    redNat c * br.toNat / 256 * 65536 + greenNat c * br.toNat / 256 * 256 + blueNat c * br.toNat / 256 := by
  rw [scaleColor_of_ne h, packChannels_toNat, scaleChannel_toNat, scaleChannel_toNat, scaleChannel_toNat,
    redOf_toNat, greenOf_toNat, blueOf_toNat]
  rfl

/-- Settles O26: the operands read are `colorOperand` and `brightnessOperand` as numbers, the frame is `exec_scale`,
the identity at 255 is `scaleColor_full`, and the number below 255 is `scaleColor_toNat_of_ne`. -/
theorem scaleResult : Obligations.ScaleResult := by
  refine ⟨fun a b c => ?_, fun color br s => ⟨scaleColor color br, exec_scale color br s, ?_,
    fun hne => scaleColor_toNat_of_ne hne color⟩⟩
  · rw [← colorOperand_eq_ofNat_mod, ← brightnessOperand_eq_ofNat_mod]
    exact decode_commandWord .scale a b c
  · rintro rfl
    exact scaleColor_full color

end Sys2Proof.Machine
end

section
/-! The FrameBuilder commands (42_frame_builder.md R76 to R79). -/

namespace Sys2Proof.Machine

/-- The meaning of BUILD_FRAME is one OK response (R76). -/
theorem exec_buildFrame (c : Color) (s : State) :
    exec (.buildFrame c) s = .next (respond .ok (.frame (buildUniformFrame c)) s) := rfl

/-- The meaning of BUILD_CLEAR is one OK response (R79). -/
theorem exec_buildClear (s : State) : exec .buildClear s = .next (respond .ok (.frame buildClearFrame) s) := rfl

/-- A uniform frame holds the color's channels as numbers in every slot, green first (R77, R78). -/
theorem slotsHold_buildUniformFrame (c : Color) :
    SlotsHold (buildUniformFrame c) (greenNat c) (redNat c) (blueNat c) := by
  have hg : (greenOf c).toNat = greenNat c := greenOf_toNat c
  have hr : (redOf c).toNat = redNat c := redOf_toNat c
  have hb : (blueOf c).toNat = blueNat c := blueOf_toNat c
  rw [SlotsHold, buildUniformFrame_toList, ← hg, ← hr, ← hb]
  refine ⟨rfl, fun i hi => ?_⟩
  obtain rfl | rfl | rfl | rfl : i = 0 ∨ i = 1 ∨ i = 2 ∨ i = 3 := by omega
  all_goals exact ⟨rfl, rfl, rfl⟩

/-- Settles O29: the Color read is `colorOperand` as a number, the frame is `exec_buildFrame`, and the twelve bytes are
`slotsHold_buildUniformFrame`. -/
theorem buildFrameResult : Obligations.BuildFrameResult := by
  refine ⟨fun a b c => ?_,
    fun c s => ⟨buildUniformFrame c, exec_buildFrame c s, slotsHold_buildUniformFrame c⟩⟩
  rw [← colorOperand_eq_ofNat_mod]
  exact decode_commandWord .buildFrame a b c

/-- Settles O30: the encoding is `decode_commandWord`, the frame is `exec_buildClear`, and the twelve bytes are
`buildClearFrame_toList`. -/
theorem buildClearResult : Obligations.BuildClearResult :=
  ⟨decode_commandWord .buildClear, fun s => ⟨buildClearFrame, exec_buildClear s, buildClearFrame_toList⟩⟩

end Sys2Proof.Machine
end

section
/-! The brightness commands (43_strip_controller.md R82, R84). -/

namespace Sys2Proof.Machine

/-- The meaning of SET_BRIGHTNESS is the register write with its OK response (R82). -/
theorem exec_setBrightness (v : Int) (s : State) :
    exec (.setBrightness v) s = .next (respond .ok .none (writeBr (low8 v) s)) := rfl

/-- The meaning of GET_BRIGHTNESS is one OK response that carries BR (R84). -/
theorem exec_getBrightness (s : State) : exec .getBrightness s = .next (respond .ok (.brightness s.br) s) := rfl

/-- Settles O32: the encoding is `decode_commandWord`, the frame is `exec_setBrightness`, the number is
`low8_toNat`. -/
theorem setBrightnessResult : Obligations.SetBrightnessResult :=
  ⟨decode_commandWord .setBrightness, fun v s => ⟨low8 v, exec_setBrightness v s, low8_toNat v⟩⟩

/-- Settles O33: the encoding is `decode_commandWord`, and the frame is `exec_getBrightness`, at any state and at the
reset state. -/
theorem getBrightnessResult : Obligations.GetBrightnessResult :=
  ⟨decode_commandWord .getBrightness, exec_getBrightness, exec_getBrightness State.reset⟩

end Sys2Proof.Machine
end

section
/-! Which words are SET_BRIGHTNESS (R43, R44). -/

namespace Sys2Proof

/-- The opcode map is one to one (R43). -/
theorem ofOpcode_eq_some_iff {op : Opcode} {m : Mnemonic} : Mnemonic.ofOpcode op = some m ↔ op = m.opcode := by
  constructor
  · intro h
    unfold Mnemonic.ofOpcode at h
    split at h <;> cases h <;> rfl
  · rintro rfl
    exact ofOpcode_opcode m

theorem decode_eq_setBrightness_iff {w : CommandWord} {v : Int} :
    decode w = .instr (.setBrightness v) ↔ opField w = 0x7 ∧ v = (opaField w).toInt := by
  rw [decode_eq_instr_iff]
  constructor
  · rintro ⟨m, hm, hi⟩
    obtain rfl : Mnemonic.setBrightness = m := (congrArg Instr.mnemonic hi).trans (readOperands_mnemonic ..)
    exact ⟨ofOpcode_eq_some_iff.mp hm, Instr.setBrightness.inj hi⟩
  · rintro ⟨hop, rfl⟩
    exact ⟨.setBrightness, ofOpcode_eq_some_iff.mpr hop, rfl⟩

end Sys2Proof
end

section
/-! What a step can do to BR (R83, R109, R112). -/

namespace Sys2Proof.Machine

@[simp] theorem resetNow_br (e : HandOffExtent) (s : State) : (resetNow e s).br = resetBrightness := by
  obtain ⟨-, h⟩ | ⟨_, -, h⟩ := resetNow_cases e s <;> rw [h, resetCore_br]

@[simp] theorem abandon_br (i : Instr) (e : HandOffExtent) (s : State) : (abandon i e s).br = resetBrightness := by
  obtain ⟨-, h⟩ | ⟨_, -, h⟩ := abandon_cases i e s <;> rw [h, resetCore_br]

/-- BR after a step: kept, written by the SET_BRIGHTNESS issued next, or reset. -/
theorem step_next_br_cases {s t : State} (h : step s = .next t) :
    t.br = s.br ∨
    (∃ w rest, s.host = .issue w :: rest ∧ opField w = 0x7 ∧ t.br = low8 (opaField w).toInt) ∨
    (t.br = resetBrightness ∧
      ((∃ e rest, s.host = .reset e :: rest) ∨ ∃ w e rest, s.host = .resetDuring w e :: rest)) := by
  obtain rfl | ⟨w, rest, i, hh, -, hd, he⟩ | ⟨e, rest, hh, rfl⟩ | ⟨w, e, rest, i, hh, -, -, rfl⟩ := step_next_cases h
  · exact .inl rfl
  · obtain hbr | ⟨v, rfl, hbr⟩ := exec_next_br_cases he
    · exact .inl hbr
    · obtain ⟨hop, rfl⟩ := decode_eq_setBrightness_iff.mp hd
      exact .inr (.inl ⟨w, rest, hh, hop, hbr⟩)
  · exact .inr (.inr ⟨resetNow_br .., .inl ⟨e, rest, hh⟩⟩)
  · exact .inr (.inr ⟨abandon_br .., .inr ⟨w, e, rest, hh⟩⟩)

/-- Settles O42: the cases of `step_next_br_cases` in which BR can differ, with the byte that SET_BRIGHTNESS writes as
a number by `low8_toNat`. -/
theorem stepChangesBrOnlyBySetOrReset : Obligations.StepChangesBrOnlyBySetOrReset := by
  intro s t h hne
  obtain hbr | ⟨w, rest, hh, hop, hbr⟩ | hreset := step_next_br_cases h
  · exact absurd hbr hne
  · exact .inl ⟨w, rest, hh, hop, hbr ▸ low8_toNat _⟩
  · exact .inr hreset

end Sys2Proof.Machine
end

section
/-! The command a ready core is issued (R109, R111, R115). -/

namespace Sys2Proof.Machine

/-- A ready core performs the command it is issued, at the state with that event taken (R34, R37). -/
theorem step_of_issue {s : State} {w : CommandWord} {rest : List HostEvent} {i : Instr} (hs : Ready s)
    (hh : s.host = .issue w :: rest) (hd : decode w = .instr i) : step s = exec i { s with host := rest } := by
  have hp : accept s = .perform i (takeEvent s) := accept_eq_perform_iff.mpr ⟨w, rest, hh, hs, hd, rfl⟩
  simp [step, hp, takeEvent, hh]

/-- A run of one step is that step, whatever its outcome. -/
theorem coreRun_one (M : Host.Core) (s : M.State) : M.run 1 s = M.step s := by
  rw [Host.Core.run]
  cases M.step s <;> rfl

theorem runSteps_one (s : State) : runSteps 1 s = step s := coreRun_one core s

/-- A byte that is a number modulo 256 is that number's low byte. -/
theorem eq_low8_of_toNat {b : Byte} {v : Int} (h : (b.toNat : Int) = v % 256) : b = low8 v :=
  BitVec.eq_of_toNat_eq (Int.ofNat.inj (h.trans (low8_toNat v).symm))

/-- Settles O48: the reset state is ready, so `step_of_issue` applies to it with one event at its port. -/
theorem resetIsReadyAt128 : Obligations.ResetIsReadyAt128 :=
  ⟨rfl, rfl, fun _ _ hd => step_of_issue rfl rfl hd⟩

/-- Settles O38: `step_of_issue` twice. SET_BRIGHTNESS leaves the core ready, so the second step performs the next
command at the state that `exec_setBrightness` gives, new BR included. -/
theorem nextCommandSeesNewBrightness : Obligations.NextCommandSeesNewBrightness := by
  intro s w w' rest b i hs hh hop hd hb
  have hset : decode w = .instr (.setBrightness (opaField w).toInt) := decode_eq_setBrightness_iff.mpr ⟨hop, rfl⟩
  have h₁ : step s = .next { s with
      br := b, host := .issue w' :: rest, responses := s.responses ++ [⟨.ok, .none⟩] } := by
    rw [step_of_issue hs hh hset, exec_setBrightness, eq_low8_of_toNat hb]
    rfl
  refine ⟨h₁, ?_⟩
  rw [runSteps_succ_of_next h₁, runSteps_one]
  exact step_of_issue hs rfl hd

end Sys2Proof.Machine
end

section
/-! Operand fields and the operands they carry, in both directions (30_encoding.md R44, R46). -/

namespace Sys2Proof

/-- A signed32 operand is the one its pattern carries (R46). -/
theorem signed32_signedField {v : Int} (h : inSigned32 v = true) : signed32 (signedField v) = v := by
  simp only [inSigned32, Bool.and_eq_true, decide_eq_true_eq] at h
  rw [signed32, signedField, BitVec.toInt_ofInt]
  exact Int.bmod_eq_of_le (by omega) (by omega)

@[simp] theorem signedField_signed32 (field : Word) : signedField (signed32 field) = field := BitVec.ofInt_toInt

theorem inSigned32_signed32 (field : Word) : inSigned32 (signed32 field) = true := by
  have := field.le_toInt
  have := field.toInt_lt
  rw [inSigned32, signed32, Bool.and_eq_true, decide_eq_true_iff, decide_eq_true_iff]
  omega

@[simp] theorem colorOperand_colorField (c : Color) : colorOperand (colorField c) = c := by
  apply BitVec.eq_of_toNat_eq
  rw [colorOperand, colorField, BitVec.extractLsb'_toNat, BitVec.toNat_setWidth]
  omega

@[simp] theorem brightnessOperand_brightnessField (b : Byte) : brightnessOperand (brightnessField b) = b := by
  apply BitVec.eq_of_toNat_eq
  rw [brightnessOperand, brightnessField, BitVec.extractLsb'_toNat, BitVec.toNat_setWidth]
  omega

/-- Writing back a Color that was read clears the bits above it (R33). -/
@[simp] theorem colorField_colorOperand (field : Word) : colorField (colorOperand field) = field &&& 0x00FFFFFF#32 := by
  apply BitVec.eq_of_toNat_eq
  have hmask : (0x00FFFFFF#32).toNat = 2 ^ 24 - 1 := rfl
  rw [BitVec.toNat_and, hmask, Nat.and_two_pow_sub_one_eq_mod, colorField, colorOperand, BitVec.toNat_setWidth,
    BitVec.extractLsb'_toNat]
  omega

/-- Writing back a brightness that was read clears the bits above it (R33). -/
@[simp] theorem brightnessField_brightnessOperand (field : Word) :
    brightnessField (brightnessOperand field) = field &&& 0x000000FF#32 := by
  apply BitVec.eq_of_toNat_eq
  have hmask : (0x000000FF#32).toNat = 2 ^ 8 - 1 := rfl
  rw [BitVec.toNat_and, hmask, Nat.and_two_pow_sub_one_eq_mod, brightnessField, brightnessOperand,
    BitVec.toNat_setWidth, BitVec.extractLsb'_toNat]
  omega

end Sys2Proof
end

section
/-! Decoding and encoding as inverses (30_encoding.md R42 to R46). -/

namespace Sys2Proof

/-- Masking a command word masks each of its fields (R42). -/
theorem commandWord_and (op op' : Opcode) (a a' b b' c c' : Word) :
    commandWord op a b c &&& commandWord op' a' b' c' =
      commandWord (op &&& op') (a &&& a') (b &&& b') (c &&& c') := by
  apply BitVec.eq_of_getLsbD_eq
  intro i _
  simp only [BitVec.getLsbD_and, getLsbD_commandWord]
  split_ifs <;> rfl

/-- Settles O1: the encoding is the command word of the mnemonic's opcode, so decoding it reads the three fields back
(`decode_commandWord`), and each field carries its operand. -/
theorem decodeOfEncodeIsTheCommand : Obligations.DecodeOfEncodeIsTheCommand := by
  intro i hi
  cases i with
  | pack r g b =>
    simp only [wellFormed, Bool.and_eq_true] at hi
    obtain ⟨⟨hr, hg⟩, hb⟩ := hi
    refine (decode_commandWord .pack ..).trans ?_
    simp only [readOperands, signed32_signedField hr, signed32_signedField hg, signed32_signedField hb]
  | unpack c =>
    refine (decode_commandWord .unpack ..).trans ?_
    simp only [readOperands, colorOperand_colorField]
  | fromHsl h s l =>
    simp only [wellFormed, Bool.and_eq_true] at hi
    obtain ⟨⟨hh, hs⟩, hl⟩ := hi
    refine (decode_commandWord .fromHsl ..).trans ?_
    simp only [readOperands, signed32_signedField hh, signed32_signedField hs, signed32_signedField hl]
  | scale c b =>
    refine (decode_commandWord .scale ..).trans ?_
    simp only [readOperands, colorOperand_colorField, brightnessOperand_brightnessField]
  | buildFrame c =>
    refine (decode_commandWord .buildFrame ..).trans ?_
    simp only [readOperands, colorOperand_colorField]
  | buildClear => exact decode_commandWord .buildClear ..
  | setBrightness v =>
    refine (decode_commandWord .setBrightness ..).trans ?_
    simp only [readOperands, signed32_signedField hi]
  | getBrightness => exact decode_commandWord .getBrightness ..
  | showColor c =>
    refine (decode_commandWord .showColor ..).trans ?_
    simp only [readOperands, colorOperand_colorField]
  | clear => exact decode_commandWord .clear ..

/-- The decoder gives no operand that a field cannot carry (R10). -/
theorem wellFormed_readOperands (m : Mnemonic) (a b c : Word) : wellFormed (readOperands m a b c) = true := by
  cases m <;> simp [readOperands, wellFormed, inSigned32_signed32]

/-- Encoding the operands that were read keeps the fields but for the bits that are not read (R44, R46). -/
theorem encode_readOperands (m : Mnemonic) (a b c : Word) :
    encode (readOperands m a b c) = commandWord m.opcode a b c &&& m.readMask := by
  have hfull (x : Word) : x &&& 0xFFFFFFFF#32 = x := BitVec.and_allOnes
  cases m <;> simp [readOperands, encode, Mnemonic.readMask, Mnemonic.opcode, commandWord_and, hfull]

/-- Settles O2: the word is its four fields, OP among them, and `encode_readOperands` masks them. -/
theorem encodeOfDecodeKeepsReadBits : Obligations.EncodeOfDecodeKeepsReadBits := by
  intro w i hd
  obtain ⟨m, hm, rfl⟩ := decode_eq_instr_iff.mp hd
  refine ⟨wellFormed_readOperands .., ?_⟩
  rw [encode_readOperands, readOperands_mnemonic, ← ofOpcode_eq_some_iff.mp hm, commandWord_of_fields]

/-- The opcodes that select no command (R45). -/
theorem ofOpcode_eq_none_iff {op : Opcode} : Mnemonic.ofOpcode op = none ↔ op.toNat = 0 ∨ 11 ≤ op.toNat := by
  revert op
  decide

theorem decode_eq_unassigned_iff {w : CommandWord} {op : Opcode} :
    decode w = .unassigned op ↔ op = opField w ∧ ((opField w).toNat = 0 ∨ 11 ≤ (opField w).toNat) := by
  rw [← ofOpcode_eq_none_iff, decode]
  cases Mnemonic.ofOpcode (opField w) <;> simp [eq_comm]

/-- Settles O4: a word decodes to a mnemonic exactly when OP is that mnemonic's opcode, here compared as numbers, and
to none exactly when OP is off the map (`decode_eq_unassigned_iff`). -/
theorem opcodeMapAsTabled : Obligations.OpcodeMapAsTabled := by
  refine fun w => ⟨fun m => ?_, ?_⟩
  · rw [exists_decode_eq_instr_iff, ofOpcode_eq_some_iff, ← BitVec.toNat_inj]
    cases m <;> rfl
  · simp only [decode_eq_unassigned_iff, exists_eq_left]

end Sys2Proof
end

section
/-! The meaning of a command in two parts: what it answers and leaves in BR when it makes no hand-off, and the frame it
hands off when it makes one (R17, R22, R24). -/

namespace Sys2Proof.Machine

/-- The payload of a command's OK response (R22), with BR as it is when the command starts. -/
def okPayload (br : Byte) : Instr → Payload
  | .pack r g b => .color (packColor r g b)
  | .unpack c => .channels (unpackColor c)
  | .fromHsl h s l => .color (hslColor h s l)
  | .scale c b => .color (scaleColor c b)
  | .buildFrame c => .frame (buildUniformFrame c)
  | .buildClear => .frame buildClearFrame
  | .setBrightness _ => .none
  | .getBrightness => .brightness br
  | .showColor _ => .none
  | .clear => .none

/-- What a command leaves in BR (R17). -/
def brAfter (br : Byte) : Instr → Byte
  | .setBrightness v => low8 v
  | _ => br

theorem brAfter_of_ne {i : Instr} (h : i.mnemonic ≠ .setBrightness) (br : Byte) : brAfter br i = br := by
  cases i with
  | setBrightness v => exact absurd rfl h
  | _ => rfl

/-- A command that makes no hand-off answers OK and may write BR; that is all it does (R35, R94). -/
theorem exec_of_no_handOff {i : Instr} {s : State} (h : handOffFrame i s.br = none) :
    exec i s = .next (respond .ok (okPayload s.br i) (writeBr (brAfter s.br i) s)) := by
  cases i with
  | showColor c => cases h
  | clear => cases h
  | _ => rfl

/-- A command that hands off a frame does nothing else (R85, R89). -/
theorem exec_of_handOff {i : Instr} {s : State} {f : Frame} (h : handOffFrame i s.br = some f) :
    exec i s = .next (transmit f s) := by
  cases i with
  | showColor c => cases h; rfl
  | clear => cases h; rfl
  | _ => cases h

/-- The commands that hand off a frame are SHOW_COLOR and CLEAR (R24). -/
theorem handOffFrame_eq_none_iff {i : Instr} {br : Byte} :
    handOffFrame i br = none ↔ handsOffFrame i.mnemonic = false := by
  cases i <;> simp [handOffFrame, handsOffFrame, Instr.mnemonic]

theorem exists_handOffFrame {i : Instr} (h : handsOffFrame i.mnemonic = true) (br : Byte) :
    ∃ f, handOffFrame i br = some f := by
  cases i with
  | showColor c => exact ⟨_, rfl⟩
  | clear => exact ⟨_, rfl⟩
  | _ => cases h

theorem handsOffFrame_of_handOffFrame {i : Instr} {br : Byte} {f : Frame} (h : handOffFrame i br = some f) :
    handsOffFrame i.mnemonic = true := by
  cases i with
  | showColor c => rfl
  | clear => rfl
  | _ => cases h

/-- The payload of an OK response has the shape of its command (R22). -/
theorem payloadFits_okPayload (br : Byte) (i : Instr) : payloadFits i.mnemonic ⟨.ok, okPayload br i⟩ = true := by
  cases i <;> rfl

theorem legalResponse_okPayload (br : Byte) (i : Instr) : legalResponse ⟨.ok, okPayload br i⟩ = true := by
  cases i <;> rfl

/-- No command fails to go on. -/
theorem exists_exec_next (i : Instr) (s : State) : ∃ t, exec i s = .next t := by
  obtain ⟨_, h⟩ | ⟨_, _, h⟩ | ⟨_, _, h⟩ := exec_cases i s <;> exact ⟨_, h⟩

end Sys2Proof.Machine
end

section
/-! The frames that commands hand off (R77 to R79, R85, R89). -/

namespace Sys2Proof.Machine

theorem uniformFrame_buildUniformFrame (c : Color) : uniformFrame (buildUniformFrame c) = true := by
  rw [uniformFrame, buildUniformFrame_toList]
  simp [List.replicate]

theorem uniformFrame_buildClearFrame : uniformFrame buildClearFrame = true := by decide

/-- Every frame that is handed off has four equal slots (R78, R79). -/
theorem uniformFrame_of_handOffFrame {i : Instr} {br : Byte} {f : Frame} (h : handOffFrame i br = some f) :
    uniformFrame f = true := by
  cases i with
  | showColor c => cases h; exact uniformFrame_buildUniformFrame _
  | clear => cases h; exact uniformFrame_buildClearFrame
  | _ => cases h

theorem legalHandOff_wholeHandOff {f : Frame} (h : uniformFrame f = true) : legalHandOff (wholeHandOff f) := ⟨rfl, h⟩

/-- What a reset leaves of a hand-off keeps its frame and PIN (R112). -/
theorem legalHandOff_of_mem_abandonedHandOff {f : Frame} (hf : uniformFrame f = true) {e : HandOffExtent} {h : HandOff}
    (hm : h ∈ abandonedHandOff f e) : legalHandOff h := by
  cases e with
  | notMade => cases hm
  | whole => rw [List.mem_singleton.mp hm]; exact ⟨rfl, hf⟩
  | cutShort n => rw [List.mem_singleton.mp hm]; exact ⟨rfl, hf⟩

end Sys2Proof.Machine
end

section
/-! The invariant, one rule for each operation on the state, then for each kind of step. -/

namespace Sys2Proof.Machine

/-- The invariant speaks of the two records and of the hand-off in progress alone. -/
theorem coreInv_congr {s t : State} (hr : t.responses = s.responses) (hh : t.handOffs = s.handOffs)
    (hf : t.inFlight = s.inFlight) (h : CoreInv s) : CoreInv t :=
  ⟨hr ▸ h.responses, hh ▸ h.handOffs, hf ▸ h.inFlight⟩

theorem coreInv_takeEvent {s : State} (h : CoreInv s) : CoreInv (takeEvent s) :=
  coreInv_congr (s := s) rfl rfl rfl h

theorem coreInv_writeBr (v : Byte) {s : State} (h : CoreInv s) : CoreInv (writeBr v s) :=
  coreInv_congr (s := s) rfl rfl rfl h

theorem coreInv_useOutcome {s : State} (h : CoreInv s) : CoreInv (useOutcome s) :=
  coreInv_congr (useOutcome_responses s) (useOutcome_handOffs s) (useOutcome_inFlight s) h

theorem coreInv_respond {st : Status} {p : Payload} (hp : legalResponse ⟨st, p⟩ = true) {s : State} (h : CoreInv s) :
    CoreInv (respond st p s) := by
  refine ⟨fun r hr => ?_, h.handOffs, h.inFlight⟩
  obtain hr | hr := List.mem_append.mp hr
  · exact h.responses r hr
  · exact List.mem_singleton.mp hr ▸ hp

theorem coreInv_append_handOffs {hs : List HandOff} (hl : ∀ h ∈ hs, legalHandOff h) {s : State} (h : CoreInv s) :
    CoreInv { s with handOffs := s.handOffs ++ hs } :=
  ⟨h.responses, fun x hx => (List.mem_append.mp hx).elim (h.handOffs x) (hl x), h.inFlight⟩

theorem coreInv_recordHandOff {x : HandOff} (hx : legalHandOff x) {s : State} (h : CoreInv s) :
    CoreInv (recordHandOff x s) :=
  coreInv_append_handOffs (fun _ hy => List.mem_singleton.mp hy ▸ hx) h

theorem coreInv_awaitTransmitter {f : Frame} (hf : uniformFrame f = true) {s : State} (h : CoreInv s) :
    CoreInv (awaitTransmitter (wholeHandOff f) s) := by
  refine ⟨h.responses, h.handOffs, ?_⟩
  rintro _ ⟨⟩
  exact ⟨legalHandOff_wholeHandOff hf, rfl⟩

theorem coreInv_resetCore {s : State} (h : CoreInv s) : CoreInv (resetCore s) :=
  ⟨h.responses, h.handOffs, nofun⟩

/-- A hand-off of a uniform frame keeps the invariant in all three ways of R96. -/
theorem coreInv_transmit {f : Frame} (hf : uniformFrame f = true) {s : State} (h : CoreInv s) :
    CoreInv (transmit f s) := by
  have hrec := coreInv_recordHandOff (legalHandOff_wholeHandOff hf) (coreInv_useOutcome h)
  obtain ⟨-, ht⟩ | ⟨info, -, ht⟩ | ⟨-, ht⟩ := transmit_cases f s <;> rw [ht]
  · exact coreInv_respond rfl hrec
  · exact coreInv_respond rfl hrec
  · exact coreInv_awaitTransmitter hf (coreInv_useOutcome h)

theorem coreInv_of_exec {i : Instr} {s t : State} (h : CoreInv s) (he : exec i s = .next t) : CoreInv t := by
  cases hf : handOffFrame i s.br with
  | none =>
    cases (exec_of_no_handOff hf).symm.trans he
    exact coreInv_respond (legalResponse_okPayload s.br i) (coreInv_writeBr _ h)
  | some f =>
    cases (exec_of_handOff hf).symm.trans he
    exact coreInv_transmit (uniformFrame_of_handOffFrame hf) h

/-- A reset records at most what it leaves of the hand-off in progress, which the invariant says is legal. -/
theorem coreInv_resetNow (e : HandOffExtent) {s : State} (h : CoreInv s) : CoreInv (resetNow e s) := by
  obtain ⟨-, hr⟩ | ⟨x, hx, hr⟩ := resetNow_cases e s <;> rw [hr]
  · exact coreInv_resetCore h
  · obtain ⟨⟨-, hu⟩, -⟩ := h.inFlight x hx
    exact coreInv_resetCore (coreInv_append_handOffs (fun _ => legalHandOff_of_mem_abandonedHandOff hu) h)

theorem coreInv_abandon (i : Instr) (e : HandOffExtent) {s : State} (h : CoreInv s) : CoreInv (abandon i e s) := by
  obtain ⟨-, ha⟩ | ⟨f, hf, ha⟩ := abandon_cases i e s <;> rw [ha]
  · exact coreInv_resetCore h
  · exact coreInv_resetCore (coreInv_append_handOffs
      (fun _ => legalHandOff_of_mem_abandonedHandOff (uniformFrame_of_handOffFrame hf)) h)

/-- Settles O52: a step takes at most one event and then performs a command, is a reset, or abandons a command, and
each of these keeps the invariant. -/
theorem stepKeepsCoreInv : Obligations.StepKeepsCoreInv := by
  intro s t h hst
  have hu := coreInv_takeEvent h
  obtain rfl | ⟨w, rest, i, -, -, -, he⟩ | ⟨e, rest, -, rfl⟩ | ⟨w, e, rest, i, -, -, -, rfl⟩ := step_next_cases hst
  · exact h
  · exact coreInv_of_exec hu he
  · exact coreInv_resetNow e hu
  · exact coreInv_abandon i e hu

/-- Settles O51: the records are empty at reset (log entry 15) and nothing is in progress. -/
theorem resetMeetsCoreInv : Obligations.ResetMeetsCoreInv :=
  ⟨⟨fun _ h => absurd h List.not_mem_nil, fun _ h => absurd h List.not_mem_nil, nofun⟩, rfl⟩

end Sys2Proof.Machine
end

section
/-! The eight commands without a hand-off (R17, R18, R35, R94), and hand-offs and BR (R18). -/

namespace Sys2Proof.Machine

/-- A command without a hand-off answers OK with its payload and writes BR, whatever the state (R35, R94). -/
theorem exec_of_not_handsOffFrame {i : Instr} (h : handsOffFrame i.mnemonic = false) (s : State) :
    exec i s = .next (respond .ok (okPayload s.br i) (writeBr (brAfter s.br i) s)) :=
  exec_of_no_handOff (handOffFrame_eq_none_iff.mpr h)

/-- Settles O39: the response and the register write of `exec_of_not_handsOffFrame` touch no other field. -/
theorem eightCommandsAlwaysAnswerOk : Obligations.EightCommandsAlwaysAnswerOk := fun i s h =>
  ⟨_, okPayload s.br i, exec_of_not_handsOffFrame h s, rfl, rfl, rfl, rfl, rfl, rfl, fun hm => brAfter_of_ne hm s.br⟩

/-- Only GET_BRIGHTNESS answers with BR (R18). -/
theorem okPayload_congr_of_ne {i : Instr} (h : i.mnemonic ≠ .getBrightness) (br br' : Byte) :
    okPayload br i = okPayload br' i := by
  cases i with
  | getBrightness => exact absurd rfl h
  | _ => rfl

/-- Only SHOW_COLOR's frame depends on BR (R18, R89). -/
theorem handOffFrame_congr_of_ne {i : Instr} (h : i.mnemonic ≠ .showColor) (br br' : Byte) :
    handOffFrame i br = handOffFrame i br' := by
  cases i with
  | showColor c => exact absurd rfl h
  | _ => rfl

@[simp] theorem nextOutcome_writeBr (b : Byte) (s : State) : nextOutcome (writeBr b s) = nextOutcome s := rfl

theorem useOutcome_writeBr (b : Byte) (s : State) : useOutcome (writeBr b s) = writeBr b (useOutcome s) := by
  cases h : s.txAnswers with
  | nil => rw [useOutcome_of_draw h, useOutcome_of_draw (s := writeBr b s) h]; rfl
  | cons o rest => rw [useOutcome_of_answer h, useOutcome_of_answer (s := writeBr b s) h]; rfl

/-- A hand-off neither reads nor writes BR. -/
theorem transmit_writeBr (f : Frame) (b : Byte) (s : State) : transmit f (writeBr b s) = writeBr b (transmit f s) := by
  unfold transmit
  rw [nextOutcome_writeBr, useOutcome_writeBr]
  cases nextOutcome s <;> rfl

/-- Settles O43: neither the payload nor the frame of such a command depends on BR, and a hand-off does not read it. -/
theorem onlyShowAndGetReadBr : Obligations.OnlyShowAndGetReadBr := by
  intro i s t u b hshow hget ht hu
  cases hf : handOffFrame i s.br with
  | none =>
    have hm := handOffFrame_eq_none_iff.mp hf
    cases (exec_of_not_handsOffFrame hm s).symm.trans ht
    cases (exec_of_not_handsOffFrame hm (writeBr b s)).symm.trans hu
    exact ⟨congrArg (s.responses ++ [⟨.ok, ·⟩]) (okPayload_congr_of_ne hget b s.br), rfl, rfl⟩
  | some f =>
    cases (exec_of_handOff hf).symm.trans ht
    have hf' : handOffFrame i (writeBr b s).br = some f := (handOffFrame_congr_of_ne hshow b s.br).trans hf
    cases (exec_of_handOff hf').symm.trans hu
    rw [transmit_writeBr]
    exact ⟨rfl, rfl, rfl⟩

/-- Performed again at the BR it leaves, a command leaves the same BR and answers the same (R35). -/
theorem brAfter_brAfter (br : Byte) (i : Instr) : brAfter (brAfter br i) i = brAfter br i := by cases i <;> rfl

theorem okPayload_brAfter (br : Byte) (i : Instr) : okPayload (brAfter br i) i = okPayload br i := by cases i <;> rfl

/-- Settles O44: the second performance reads the BR that the first one left, by `brAfter_brAfter` and
`okPayload_brAfter`. -/
theorem reissueIsIdempotent : Obligations.ReissueIsIdempotent := by
  intro i s t hm ht
  cases (exec_of_not_handsOffFrame hm s).symm.trans ht
  refine ⟨⟨.ok, okPayload s.br i⟩, rfl, ?_⟩
  rw [exec_of_not_handsOffFrame hm]
  simp only [respond_br, writeBr_br, brAfter_brAfter, okPayload_brAfter]
  rfl

end Sys2Proof.Machine
end

section
/-! What a hand-off does, by the transmitter's outcome (R87, R88, R96). -/

namespace Sys2Proof.Machine

theorem transmit_of_ok {s : State} (h : nextOutcome s = .ok) (f : Frame) :
    transmit f s = respond .ok .none (recordHandOff (wholeHandOff f) (useOutcome s)) := by rw [transmit, h]

theorem transmit_of_fail {s : State} {info : TxInfo} (h : nextOutcome s = .fail info) (f : Frame) :
    transmit f s = respond .txFail (.info info) (recordHandOff (wholeHandOff f) (useOutcome s)) := by rw [transmit, h]

theorem transmit_of_noReturn {s : State} (h : nextOutcome s = .noReturn) (f : Frame) :
    transmit f s = awaitTransmitter (wholeHandOff f) (useOutcome s) := by rw [transmit, h]

/-- Where the outcome comes from (log entry 4): the first fixed answer, which is used up, else the free value. -/
theorem nextOutcome_useOutcome_cases (s : State) :
    (∃ rest, s.txAnswers = nextOutcome s :: rest ∧ useOutcome s = { s with txAnswers := rest }) ∨
    (s.txAnswers = [] ∧ nextOutcome s = Config.txOutcome s.txDraws ∧
      useOutcome s = { s with txDraws := s.txDraws + 1 }) := by
  rcases h : s.txAnswers with _ | ⟨o, rest⟩
  · exact .inr ⟨rfl, nextOutcome_of_draw h, h ▸ useOutcome_of_draw h⟩
  · exact .inl ⟨rest, by rw [nextOutcome_of_answer h], useOutcome_of_answer h⟩

/-- On success and on failure one whole hand-off and one response are added, and nothing else changes but the outcome
used up (R87, R88). -/
theorem handsOff_transmit (f : Frame) (s : State) : HandsOff f s (transmit f s) := by
  refine ⟨nextOutcome s, useOutcome s, nextOutcome_useOutcome_cases s, fun h => ?_, fun info h => ?_⟩
  · rw [transmit_of_ok h, respond, recordHandOff, useOutcome_handOffs, useOutcome_responses]
    rfl
  · rw [transmit_of_fail h, respond, recordHandOff, useOutcome_handOffs, useOutcome_responses]
    rfl

/-- Exactly one whole hand-off, of the frame given: it has ended and has its one response, or it is in progress and has
none (R24, R25, R96). -/
theorem transmit_handOff_cases (f : Frame) (s : State) :
    ((transmit f s).inFlight = s.inFlight ∧ (transmit f s).handOffs = s.handOffs ++ [wholeHandOff f] ∧
      ∃ r, (transmit f s).responses = s.responses ++ [r]) ∨
    ((transmit f s).inFlight = some (wholeHandOff f) ∧ (transmit f s).handOffs = s.handOffs ∧
      (transmit f s).responses = s.responses) := by
  obtain ⟨-, h⟩ | ⟨info, -, h⟩ | ⟨-, h⟩ := transmit_cases f s <;> simp [h]

end Sys2Proof.Machine
end

section
/-! SHOW_COLOR and CLEAR (43_strip_controller.md R85 to R90). -/

namespace Sys2Proof.Machine

theorem exec_showColor (c : Color) (s : State) : exec (.showColor c) s = .next (transmit (showFrame c s.br) s) := rfl

theorem exec_clear (s : State) : exec .clear s = .next (transmit buildClearFrame s) := rfl

/-- The channels of a scaled color, as numbers (R71, R72). -/
theorem scaleColor_channels (c : Color) (br : Byte) :
    redNat (scaleColor c br) = scaledNat (redNat c) br.toNat ∧
    greenNat (scaleColor c br) = scaledNat (greenNat c) br.toNat ∧
    blueNat (scaleColor c br) = scaledNat (blueNat c) br.toNat := by
  have hred (c : Color) : redNat c = (redOf c).toNat := (redOf_toNat c).symm
  have hgreen (c : Color) : greenNat c = (greenOf c).toNat := (greenOf_toNat c).symm
  have hblue (c : Color) : blueNat c = (blueOf c).toNat := (blueOf_toNat c).symm
  by_cases h : br = 255
  · subst h
    simp [scaledNat]
  · have hbr : br.toNat ≠ 255 := fun e => h (BitVec.eq_of_toNat_eq e)
    simp only [hred, hgreen, hblue, scaledNat, if_neg hbr, scaleColor_of_ne h, redOf_packChannels,
      greenOf_packChannels, blueOf_packChannels, scaleChannel_toNat, and_self]

/-- The frame that is shown is the frame of the scaled color at every BR, full brightness included (R86). -/
theorem showFrame_eq_buildUniformFrame (c : Color) (br : Byte) :
    showFrame c br = buildUniformFrame (scaleColor c br) := by
  rw [showFrame]
  split
  · rfl
  · next h =>
    have hbr : br = 255#8 := by bv_omega
    rw [hbr, scaleColor_full]

theorem slotsHold_showFrame (c : Color) (br : Byte) : SlotsHold (showFrame c br) (scaledNat (greenNat c) br.toNat)
    (scaledNat (redNat c) br.toNat) (scaledNat (blueNat c) br.toNat) := by
  obtain ⟨hr, hg, hb⟩ := scaleColor_channels c br
  rw [showFrame_eq_buildUniformFrame, ← hr, ← hg, ← hb]
  exact slotsHold_buildUniformFrame _

/-- Settles O34: the Color read is `colorOperand` as a number, the effect is `handsOff_transmit`, and the twelve bytes
are `slotsHold_showFrame`. -/
theorem showColorResult : Obligations.ShowColorResult := by
  refine ⟨fun a b c => ?_, fun c s =>
    ⟨showFrame c s.br, _, exec_showColor c s, handsOff_transmit _ s, slotsHold_showFrame c s.br⟩⟩
  rw [← colorOperand_eq_ofNat_mod]
  exact decode_commandWord .showColor a b c

/-- Settles O35: the encoding is `decode_commandWord`, the frame is `buildClearFrame`, and the effect is
`handsOff_transmit`. -/
theorem clearResult : Obligations.ClearResult :=
  ⟨decode_commandWord .clear, buildClearFrame, buildClearFrame_toList,
    fun s => ⟨_, exec_clear s, handsOff_transmit _ s⟩⟩

/-- Settles O36: at full brightness the scaled color is shown as it is, and a hand-off does not read BR
(`transmit_writeBr`). -/
theorem showColorIsScaledFrame : Obligations.ShowColorIsScaledFrame := by
  intro c s t ht
  cases (exec_showColor c s).symm.trans ht
  refine ⟨showFrame_eq_buildUniformFrame c s.br, ?_⟩
  have hframe : showFrame (scaleColor c s.br) 255#8 = showFrame c s.br := by
    rw [showFrame_eq_buildUniformFrame, scaleColor_full, showFrame_eq_buildUniformFrame]
  calc exec (.showColor (scaleColor c s.br)) { s with br := 255 }
      = .next (transmit (showFrame (scaleColor c s.br) 255#8) (writeBr 255#8 s)) := rfl
    _ = .next (writeBr 255#8 (transmit (showFrame c s.br) s)) := by rw [hframe, transmit_writeBr]

/-- A Color without channels gives the zero frame (R80). -/
theorem buildUniformFrame_of_channels_zero {c : Color} (hr : redOf c = 0) (hg : greenOf c = 0) (hb : blueOf c = 0) :
    buildUniformFrame c = buildClearFrame := by
  apply Vector.toList_inj.mp
  rw [buildUniformFrame_toList, buildClearFrame_toList, hr, hg, hb]
  rfl

/-- Settles O31: the frame of a Color without channels is the zero frame, and 0 is such a Color. -/
theorem buildClearIsBlackFrame : Obligations.BuildClearIsBlackFrame := by
  refine fun s => ⟨?_, fun c hr hg hb => ?_⟩
  · rw [exec_buildClear, exec_buildFrame, buildUniformFrame_of_channels_zero rfl rfl rfl]
  · have hred : redOf c = 0 := BitVec.eq_of_toNat_eq ((redOf_toNat c).trans hr)
    have hgreen : greenOf c = 0 := BitVec.eq_of_toNat_eq ((greenOf_toNat c).trans hg)
    have hblue : blueOf c = 0 := BitVec.eq_of_toNat_eq ((blueOf_toNat c).trans hb)
    rw [exec_buildClear, exec_buildFrame, buildUniformFrame_of_channels_zero hred hgreen hblue]

/-- Black stays black at every brightness (R90). -/
theorem scaleColor_zero (br : Byte) : scaleColor 0 br = 0 := by
  by_cases h : br = 255
  · subst h
    exact scaleColor_full 0
  · apply BitVec.eq_of_toNat_eq
    rw [scaleColor_toNat_of_ne h]
    simp [redNat, greenNat, blueNat]

/-- Settles O37: black is scaled to black, and its frame is the zero frame. -/
theorem clearIsShowBlack : Obligations.ClearIsShowBlack := by
  intro s
  rw [exec_clear, exec_showColor, showFrame_eq_buildUniformFrame, scaleColor_zero,
    buildUniformFrame_of_channels_zero rfl rfl rfl]

/-- Settles O40: the hand-off and its response are `transmit_handOff_cases`, the bytes are `slotsHold_showFrame` and
`buildClearFrame_toList`. -/
theorem exactlyOneHandOff : Obligations.ExactlyOneHandOff := by
  intro i s t hready hm ht
  obtain ⟨f, hf⟩ := exists_handOffFrame hm s.br
  cases (exec_of_handOff hf).symm.trans ht
  refine ⟨transmit_br f s, transmit_host f s, f, hf, ?_, ?_, ?_⟩
  · rintro c rfl
    cases hf
    exact slotsHold_showFrame c s.br
  · rintro rfl
    cases hf
    exact buildClearFrame_toList
  · rw [Ready] at hready
    obtain ⟨hif, hho, hre⟩ | ⟨hif, hho, hre⟩ := transmit_handOff_cases f s
    · exact ⟨by simp [allHandOffs, hif, hho, hready, wholeHandOff], .inl ⟨hif.trans hready, hho, hre⟩⟩
    · exact ⟨by simp [allHandOffs, hif, hho, hready, wholeHandOff], .inr ⟨hif, hho, hre⟩⟩

theorem payloadFits_none_of_handsOffFrame {m : Mnemonic} (h : handsOffFrame m = true) :
    payloadFits m ⟨.ok, .none⟩ = true := by
  rw [payloadFits, Bool.or_assoc, Bool.or_eq_true]
  exact .inr h

/-- Settles O45: a command without a hand-off answers by `payloadFits_okPayload`; one with a hand-off answers by the
transmitter's outcome, or not at all while the core waits. -/
theorem responseShapeByCommand : Obligations.ResponseShapeByCommand := by
  intro i s t ht
  cases hf : handOffFrame i s.br with
  | none =>
    cases (exec_of_no_handOff hf).symm.trans ht
    exact .inr ⟨_, rfl, payloadFits_okPayload s.br i, .inl rfl⟩
  | some f =>
    cases (exec_of_handOff hf).symm.trans ht
    have hm := handsOffFrame_of_handOffFrame hf
    obtain ⟨-, h⟩ | ⟨info, -, h⟩ | ⟨-, h⟩ := transmit_cases f s
    · exact .inr ⟨⟨.ok, .none⟩, by simp [h], payloadFits_none_of_handsOffFrame hm, .inl rfl⟩
    · exact .inr ⟨⟨.txFail, .info info⟩, by simp [h], hm, .inr ⟨rfl, info, rfl⟩⟩
    · exact .inl (by simp [h])

/-- Settles O46: both outcomes are recorded by the same hand-off from the same state, and only the response differs. -/
theorem failureLeavesCoreAsAfterOk : Obligations.FailureLeavesCoreAsAfterOk := by
  intro i s t u info rest hm ht hu
  obtain ⟨f, hf⟩ := exists_handOffFrame hm s.br
  cases (exec_of_handOff (s := { s with txAnswers := .ok :: rest }) hf).symm.trans ht
  cases (exec_of_handOff (s := { s with txAnswers := .fail info :: rest }) hf).symm.trans hu
  exact ⟨rfl, rfl⟩

end Sys2Proof.Machine
end

section
/-! One step, by the event at the head of the port (R21, R45, R96, R109 to R114). -/

namespace Sys2Proof.Machine

section
variable {s : State} {w : CommandWord} {rest : List HostEvent}

theorem step_of_idle (hh : s.host = []) : step s = .next s := by simp [step, accept, hh]

theorem step_of_overlap (hh : s.host = .overlap w :: rest) : step s = .refused .overlappedCommand := by
  simp [step, accept, hh]

theorem step_of_reset {e : HandOffExtent} (hh : s.host = .reset e :: rest) :
    step s = .next (resetNow e { s with host := rest }) := by
  simp [step, accept, hh, takeEvent]

/-- While the core waits, no command is accepted, with or without a reset during it (R96 case 3). -/
theorem step_of_issue_waiting (hs : ¬ Ready s) (hh : s.host = .issue w :: rest) : step s = .next s := by
  obtain ⟨x, hx⟩ := Option.ne_none_iff_exists'.mp hs
  simp [step, accept, hh, hx]

theorem step_of_resetDuring_waiting {e : HandOffExtent} (hs : ¬ Ready s) (hh : s.host = .resetDuring w e :: rest) :
    step s = .next s := by
  obtain ⟨x, hx⟩ := Option.ne_none_iff_exists'.mp hs
  simp [step, accept, hh, hx]

theorem step_of_resetDuring {e : HandOffExtent} {i : Instr} (hs : Ready s) (hh : s.host = .resetDuring w e :: rest)
    (hd : decode w = .instr i) : step s = .next (abandon i e { s with host := rest }) := by
  rw [Ready] at hs
  simp [step, accept, hh, hs, hd, takeEvent]

/-- An unassigned opcode given to a ready core is a fault, with or without a reset during it (R45, log entry 8). -/
theorem step_of_unassigned {op : Opcode} (hs : Ready s)
    (hh : s.host = .issue w :: rest ∨ ∃ e, s.host = .resetDuring w e :: rest) (hd : decode w = .unassigned op) :
    step s = .fault (.illegalOpcode op ⟨.illegal, .none⟩) := by
  rw [Ready] at hs
  obtain hh | ⟨e, hh⟩ := hh <;> simp [step, accept, hh, hs, hd, rejectOpcode, illegalResponse]

end

/-- A word is a command or has an unassigned opcode. -/
theorem decode_cases (w : CommandWord) :
    (∃ i, decode w = .instr i) ∨
    (((opField w).toNat = 0 ∨ 11 ≤ (opField w).toNat) ∧ decode w = .unassigned (opField w)) := by
  cases hd : decode w with
  | instr i => exact .inl ⟨i, rfl⟩
  | unassigned op =>
    obtain ⟨rfl, hop⟩ := decode_eq_unassigned_iff.mp hd
    exact .inr ⟨hop, rfl⟩

/-- The three outcomes of a step: it goes on, or one of the two stops is met at the port. -/
theorem step_cases (s : State) :
    (∃ t, step s = .next t) ∨
    (∃ w rest, Ready s ∧ (s.host = .issue w :: rest ∨ ∃ e, s.host = .resetDuring w e :: rest) ∧
      ((opField w).toNat = 0 ∨ 11 ≤ (opField w).toNat) ∧
      step s = .fault (.illegalOpcode (opField w) ⟨.illegal, .none⟩)) ∨
    (∃ w rest, s.host = .overlap w :: rest ∧ step s = .refused .overlappedCommand) := by
  rcases hh : s.host with _ | ⟨⟨w⟩ | ⟨w⟩ | ⟨e⟩ | ⟨w, e⟩, rest⟩
  · exact .inl ⟨s, step_of_idle hh⟩
  · by_cases hs : Ready s
    · obtain ⟨i, hd⟩ | ⟨hop, hd⟩ := decode_cases w
      · rw [step_of_issue hs hh hd]
        exact .inl (exists_exec_next i _)
      · exact .inr (.inl ⟨w, rest, hs, .inl rfl, hop, step_of_unassigned hs (.inl hh) hd⟩)
    · exact .inl ⟨s, step_of_issue_waiting hs hh⟩
  · exact .inr (.inr ⟨w, rest, rfl, step_of_overlap hh⟩)
  · exact .inl ⟨_, step_of_reset hh⟩
  · by_cases hs : Ready s
    · obtain ⟨i, hd⟩ | ⟨hop, hd⟩ := decode_cases w
      · exact .inl ⟨_, step_of_resetDuring hs hh hd⟩
      · exact .inr (.inl ⟨w, rest, hs, .inr ⟨e, rfl⟩, hop, step_of_unassigned hs (.inr ⟨e, hh⟩) hd⟩)
    · exact .inl ⟨s, step_of_resetDuring_waiting hs hh⟩

end Sys2Proof.Machine
end

section
/-! The stops, and the command a ready core is issued (R34, R45, R114). -/

namespace Sys2Proof.Machine

/-- Settles O8: it is `step_of_issue`. -/
theorem stepPerformsDecodedCommand : Obligations.StepPerformsDecodedCommand := fun _ _ _ _ => step_of_issue

theorem decodeTableWord_eq_some_iff {nbits w : Nat} {i : Instr} :
    decodeTableWord nbits w = some i ↔ decode (tableWord nbits w) = .instr i := by
  rw [decodeTableWord]
  cases decode (tableWord nbits w) <;> simp

/-- Settles O9: the presented word stands at the head of the port of a ready core, and taking it gives the port back. -/
theorem presentedTableWordRuns : Obligations.PresentedTableWordRuns := fun s nbits w _ hi =>
  step_of_issue (presentCommand_inFlight _ s) (presentCommand_host (tableWord nbits w) s)
    (decodeTableWord_eq_some_iff.mp hi)

/-- Settles O10: such a word does not decode (`decode_eq_unassigned_iff`), so `step_of_unassigned` applies. -/
theorem unassignedOpcodeFaults : Obligations.UnassignedOpcodeFaults := fun _ _ _ hs hh hop =>
  step_of_unassigned hs (.inl hh) (decode_eq_unassigned_iff.mpr ⟨rfl, hop⟩)

/-- Settles O11: from left to right by `step_cases`, and back by the rule of each stop. -/
theorem stepStopsOnlyAsListed : Obligations.StepStopsOnlyAsListed := by
  refine fun s => ⟨fun f => ⟨fun h => ?_, ?_⟩, fun r => ⟨fun h => ?_, ?_⟩⟩
  · obtain ⟨t, ht⟩ | ⟨w, rest, hs, hh, hop, hf⟩ | ⟨w, rest, -, hr⟩ := step_cases s
    · cases ht.symm.trans h
    · cases hf.symm.trans h
      exact ⟨hs, w, rest, hh, hop, rfl⟩
    · cases hr.symm.trans h
  · rintro ⟨hs, w, rest, hh, hop, rfl⟩
    exact step_of_unassigned hs hh (decode_eq_unassigned_iff.mpr ⟨rfl, hop⟩)
  · obtain ⟨t, ht⟩ | ⟨w, rest, -, -, -, hf⟩ | ⟨w, rest, hh, hr⟩ := step_cases s
    · cases ht.symm.trans h
    · cases hf.symm.trans h
    · cases hr.symm.trans h
      exact ⟨⟨w, rest, hh⟩, rfl⟩
  · rintro ⟨⟨w, rest, hh⟩, rfl⟩
    exact step_of_overlap hh

end Sys2Proof.Machine
end

section
/-! A core that waits for ever (R96 case 3, U5). -/

namespace Sys2Proof.Machine

/-- A waiting core whose host issues serialised commands only stays as it is. -/
theorem step_of_waiting {s : State} (hs : ¬ Ready s) (hh : ∀ e ∈ s.host, ∃ w, e = .issue w) : step s = .next s := by
  rcases he : s.host with _ | ⟨e, rest⟩
  · exact step_of_idle he
  · obtain ⟨w, rfl⟩ := hh e (he ▸ List.mem_cons_self)
    exact step_of_issue_waiting hs he

/-- Settles O47: the hand-off is in progress by `transmit_of_noReturn`, and each step leaves the waiting core as it
is. -/
theorem noReturnStaysBusy : Obligations.NoReturnStaysBusy := by
  intro i s hm hno hh
  obtain ⟨f, hf⟩ := exists_handOffFrame hm s.br
  have ht := exec_of_handOff hf
  rw [transmit_of_noReturn hno] at ht
  have hbusy : ¬ Ready (awaitTransmitter (wholeHandOff f) (useOutcome s)) := nofun
  refine ⟨f, _, hf, ht, rfl, hbusy, useOutcome_responses s, useOutcome_br s,
    runSteps_of_fixed (step_of_waiting hbusy ?_)⟩
  rwa [awaitTransmitter_host, useOutcome_host]

end Sys2Proof.Machine
end

section
/-! Resets (R109 to R112). -/

namespace Sys2Proof.Machine

@[simp] theorem resetNow_inFlight (e : HandOffExtent) (s : State) : (resetNow e s).inFlight = none := by
  obtain ⟨-, h⟩ | ⟨_, -, h⟩ := resetNow_cases e s <;> rw [h, resetCore_inFlight]
@[simp] theorem resetNow_host (e : HandOffExtent) (s : State) : (resetNow e s).host = s.host := by
  obtain ⟨-, h⟩ | ⟨_, -, h⟩ := resetNow_cases e s <;> rw [h, resetCore_host]
@[simp] theorem resetNow_responses (e : HandOffExtent) (s : State) : (resetNow e s).responses = s.responses := by
  obtain ⟨-, h⟩ | ⟨_, -, h⟩ := resetNow_cases e s <;> rw [h, resetCore_responses]

@[simp] theorem abandon_inFlight (i : Instr) (e : HandOffExtent) (s : State) : (abandon i e s).inFlight = none := by
  obtain ⟨-, h⟩ | ⟨_, -, h⟩ := abandon_cases i e s <;> rw [h, resetCore_inFlight]
@[simp] theorem abandon_host (i : Instr) (e : HandOffExtent) (s : State) : (abandon i e s).host = s.host := by
  obtain ⟨-, h⟩ | ⟨_, -, h⟩ := abandon_cases i e s <;> rw [h, resetCore_host]
@[simp] theorem abandon_responses (i : Instr) (e : HandOffExtent) (s : State) :
    (abandon i e s).responses = s.responses := by
  obtain ⟨-, h⟩ | ⟨_, -, h⟩ := abandon_cases i e s <;> rw [h, resetCore_responses]

/-- An idle core's record gains nothing. -/
theorem resetNow_handOffs_of_ready {s : State} (hs : Ready s) (e : HandOffExtent) :
    (resetNow e s).handOffs = s.handOffs := by
  rw [Ready] at hs
  rw [resetNow, hs, resetCore_handOffs]

/-- A waiting core's record gains what the reset leaves of the hand-off in progress (log entry 9). -/
theorem resetNow_handOffs_of_waiting {s : State} {h : HandOff} (hs : s.inFlight = some h) (e : HandOffExtent) :
    (resetNow e s).handOffs = s.handOffs ++ abandonedHandOff h.frame e := by
  rw [resetNow, hs, resetCore_handOffs]

theorem abandon_handOffs_of_no_handOff {i : Instr} {s : State} (h : handOffFrame i s.br = none) (e : HandOffExtent) :
    (abandon i e s).handOffs = s.handOffs := by
  rw [abandon, h, resetCore_handOffs]

/-- The record gains what the reset leaves of the abandoned command's hand-off (log entry 8). -/
theorem abandon_handOffs_of_handOff {i : Instr} {s : State} {f : Frame} (h : handOffFrame i s.br = some f)
    (e : HandOffExtent) : (abandon i e s).handOffs = s.handOffs ++ abandonedHandOff f e := by
  rw [abandon, h, resetCore_handOffs]

/-- The three ways of R112 for the hand-off of an abandoned command. -/
theorem abandonedHandOff_cases (f : Frame) (e : HandOffExtent) :
    (abandonedHandOff f e = [] ∧ e = .notMade) ∨ (abandonedHandOff f e = [⟨f, Config.pin, none⟩] ∧ e = .whole) ∨
      ∃ n, abandonedHandOff f e = [⟨f, Config.pin, some n⟩] ∧ e = .cutShort n := by
  cases e with
  | notMade => exact .inl ⟨rfl, rfl⟩
  | whole => exact .inr (.inl ⟨rfl, rfl⟩)
  | cutShort n => exact .inr (.inr ⟨n, rfl, rfl⟩)

/-- Settles O50: the step is `resetNow`, whose fields are given above, by what the core is doing. -/
theorem resetMakesReady : Obligations.ResetMakesReady := by
  intro s e rest hh
  refine ⟨_, step_of_reset hh, resetNow_br .., resetNow_inFlight .., resetNow_host .., resetNow_responses ..,
    fun hs => resetNow_handOffs_of_ready (s := { s with host := rest }) hs e, fun h hs => ?_⟩
  exact ⟨_, resetNow_handOffs_of_waiting (s := { s with host := rest }) hs e, abandonedHandOff_cases h.frame e⟩

/-- Settles O49: the step is `abandon`, whose record gains what the event says of the command's own frame. -/
theorem resetDuringCommandAbandons : Obligations.ResetDuringCommandAbandons := by
  intro s w e rest i hs hh hd
  refine ⟨_, step_of_resetDuring hs hh hd, abandon_br .., abandon_inFlight .., abandon_host .., abandon_responses ..,
    fun hm => abandon_handOffs_of_no_handOff (handOffFrame_eq_none_iff.mpr hm) e, fun f hif => ?_⟩
  have hf : handOffFrame i s.br = some f := by
    obtain ⟨c, rfl, rfl⟩ | ⟨rfl, rfl⟩ := hif <;> rfl
  rw [abandon_handOffs_of_handOff (s := { s with host := rest }) hf]
  refine ⟨?_, ?_, ?_⟩
  · rintro rfl
    exact List.append_nil _
  · rintro rfl
    rfl
  · rintro n rfl
    exact ⟨_, rfl, rfl, rfl⟩

end Sys2Proof.Machine
end

section
/-! Serialised runs (R37, R120). -/

namespace Sys2Proof.Machine

/-- An opcode of the map decodes (R43). -/
theorem exists_decode_of_assignedOpcode {w : CommandWord} (h : assignedOpcode (opField w) = true) :
    ∃ i, decode w = .instr i := by
  obtain hi | ⟨hop, -⟩ := decode_cases w
  · exact hi
  · rw [assignedOpcode, Bool.and_eq_true, decide_eq_true_iff, decide_eq_true_iff] at h
    omega

/-- The commands that hand off a frame are the words with OP 9 and 0xA (R43). -/
theorem handsOffFrame_of_decode {w : CommandWord} {i : Instr} (hd : decode w = .instr i) :
    (opField w == 0x9 || opField w == 0xA) = handsOffFrame i.mnemonic := by
  obtain ⟨m, hm, rfl⟩ := decode_eq_instr_iff.mp hd
  rw [readOperands_mnemonic, ofOpcode_eq_some_iff.mp hm]
  cases m <;> rfl

/-- The low byte of a signed32 operand is the field's low byte (D5). -/
theorem low8_signed32 (field : Word) : low8 (signed32 field) = field.extractLsb' 0 8 := by
  apply BitVec.eq_of_toNat_eq
  have h := low8_toNat (signed32 field)
  have hc : signed32 field = _ := BitVec.toInt_eq_toNat_cond field
  rw [BitVec.extractLsb'_toNat, Nat.shiftRight_zero]
  split at hc <;> omega

/-- BR after a command is BR after its word (R17). -/
theorem brAfter_of_decode {w : CommandWord} {i : Instr} (hd : decode w = .instr i) (br : Byte) :
    brAfter br i = brAfterWord br w := by
  obtain ⟨m, hm, rfl⟩ := decode_eq_instr_iff.mp hd
  have hop := ofOpcode_eq_some_iff.mp hm
  cases m with
  | setBrightness => exact (low8_signed32 (opaField w)).trans (if_pos hop).symm
  | _ => exact (if_neg (hop ▸ by decide)).symm

theorem nextOutcome_returns {s : State} (hne : s.txAnswers ≠ []) (hret : ∀ o ∈ s.txAnswers, o.returns = true) :
    (nextOutcome s).returns = true := by
  obtain ⟨o, rest, h⟩ := List.exists_cons_of_ne_nil hne
  rw [nextOutcome_of_answer h]
  exact hret o (h ▸ List.mem_cons_self)

/-- A hand-off whose transmitter returns ends with one response and stands in the record. -/
theorem transmit_of_returns {s : State} (h : (nextOutcome s).returns = true) (f : Frame) :
    (transmit f s).inFlight = s.inFlight ∧ (transmit f s).responses.length = s.responses.length + 1 ∧
      (transmit f s).handOffs = s.handOffs ++ [wholeHandOff f] ∧ (transmit f s).txAnswers = s.txAnswers.tail := by
  obtain ⟨-, ht⟩ | ⟨info, -, ht⟩ | ⟨hno, -⟩ := transmit_cases f s
  · simp [ht]
  · simp [ht]
  · rw [hno] at h
    cases h

/-- One command of a serialised run whose hand-offs return: the core is ready again, and the command has its response,
its hand-off if it makes one, and its BR; at most one of the transmitter's answers is used up. -/
structure Performed (i : Instr) (s t : State) : Prop where
  ready : Ready t
  host : t.host = s.host
  br : t.br = brAfter s.br i
  responses : t.responses.length = s.responses.length + 1
  handOffs : t.handOffs.length = s.handOffs.length + (handsOffFrame i.mnemonic).toNat
  txAnswers : t.txAnswers = s.txAnswers ∨ t.txAnswers = s.txAnswers.tail

theorem exists_performed {i : Instr} {s : State} (hs : Ready s) (hne : s.txAnswers ≠ [])
    (hret : ∀ o ∈ s.txAnswers, o.returns = true) : ∃ t, exec i s = .next t ∧ Performed i s t := by
  cases hf : handOffFrame i s.br with
  | none =>
    refine ⟨_, exec_of_no_handOff hf, hs, rfl, rfl, by simp, ?_, .inl rfl⟩
    rw [handOffFrame_eq_none_iff.mp hf]
    rfl
  | some f =>
    have hm := handsOffFrame_of_handOffFrame hf
    obtain ⟨hif, hre, hho, htx⟩ := transmit_of_returns (nextOutcome_returns hne hret) f
    refine ⟨_, exec_of_handOff hf, hif.trans hs, transmit_host f s, ?_, hre, ?_, .inr htx⟩
    · rw [transmit_br, brAfter_of_ne]
      rintro hset
      rw [hset] at hm
      cases hm
    · rw [hho, hm, List.length_append]
      rfl

/-- Settles O53, by induction on the commands: the first step is `exists_performed`, which leaves a ready core with the
remaining commands and enough answers for them. -/
theorem serialisedRunEnds : Obligations.SerialisedRunEnds := by
  intro ws
  induction ws with
  | nil =>
    intro s hs hh _ _ _
    exact ⟨s, runSteps_zero s, ⟨hh, hs⟩, rfl, rfl, rfl⟩
  | cons w ws ih =>
    intro s hs hh hop hret hlen
    obtain ⟨i, hd⟩ := exists_decode_of_assignedOpcode (hop w List.mem_cons_self)
    have hne : s.txAnswers ≠ [] := List.ne_nil_of_length_pos (by simp at hlen; omega)
    obtain ⟨t, ht, hp⟩ := exists_performed (i := i) (s := { s with host := ws.map .issue }) hs hne hret
    have hstep : step s = .next t := (step_of_issue hs hh hd).trans ht
    have hsub : (∀ o ∈ t.txAnswers, o.returns = true) ∧ ws.length ≤ t.txAnswers.length := by
      obtain htx | htx := hp.txAnswers <;> rw [htx]
      · exact ⟨hret, Nat.le_of_succ_le hlen⟩
      · refine ⟨fun o ho => hret o (List.mem_of_mem_tail ho), ?_⟩
        rw [List.length_tail]
        exact Nat.le_sub_of_add_le hlen
    obtain ⟨u, hu, hend, hres, hho, hbr⟩ :=
      ih t hp.ready hp.host (fun x hx => hop x (List.mem_cons_of_mem _ hx)) hsub.1 hsub.2
    refine ⟨u, ?_, hend, ?_, ?_, ?_⟩
    · rw [List.length_cons, runSteps_succ_of_next hstep, hu]
    · rw [hres, hp.responses, List.length_cons, Nat.add_right_comm, Nat.add_assoc]
    · rw [hho, hp.handOffs, List.countP_cons, handsOffFrame_of_decode hd]
      cases handsOffFrame i.mnemonic
      · simp
      · simp
        omega
    · rw [hbr, hp.br, brAfter_of_decode hd, List.foldl_cons]

end Sys2Proof.Machine
end

section
/-! PACK and UNPACK as inverses, and SCALE channel by channel (40_color_codec.md R69, 41_brightness_scaler.md R73,
R74). -/

namespace Sys2Proof.Machine

/-- UNPACK of a packed Color gives the low bytes (R69). -/
theorem unpackColor_packColor (r g b : Int) : unpackColor (packColor r g b) = ⟨low8 r, low8 g, low8 b⟩ := by
  simp only [unpackColor, packColor, redOf_packChannels, greenOf_packChannels, blueOf_packChannels]

/-- PACK of a Color's channels gives the Color (R69). -/
theorem packColor_channels (c : Color) :
    packColor (channelInt (redOf c)) (channelInt (greenOf c)) (channelInt (blueOf c)) = c := by
  simp only [packColor, low8_channelInt, packChannels_of_channels]

/-- Settles O14: both round trips are those of the two functions, and the response is all that either command adds. -/
theorem packUnpackRoundTrip : Obligations.PackUnpackRoundTrip := by
  refine ⟨fun r g b s => ?_, fun c s => ?_⟩
  · refine ⟨_, _, _, exec_pack r g b s, rfl, exec_unpack .., ?_⟩
    rw [unpackColor_packColor]
    exact ⟨low8_toNat r, low8_toNat g, low8_toNat b⟩
  · refine ⟨_, _, exec_unpack c s, rfl, (exec_pack ..).trans ?_⟩
    have hc : packColor (unpackColor c).red.toNat (unpackColor c).green.toNat (unpackColor c).blue.toNat = c :=
      packColor_channels c
    rw [hc]
    rfl

theorem scaledNat_le {ch br : Nat} (hbr : br ≤ 255) : scaledNat ch br ≤ ch := by
  rw [scaledNat]
  split
  · exact le_rfl
  · have : ch * br ≤ ch * 255 := Nat.mul_le_mul_left ch hbr
    omega

/-- Below full brightness no channel exceeds 253 (R73). -/
theorem scaledNat_le_of_ne {ch br : Nat} (hch : ch ≤ 255) (hbr : br ≤ 255) (hne : br ≠ 255) :
    scaledNat ch br ≤ 253 := by
  rw [scaledNat, if_neg hne]
  have : ch * br ≤ 255 * 254 := Nat.mul_le_mul hch (by omega)
  omega

theorem scaledNat_mono_channel {ch ch' : Nat} (h : ch ≤ ch') (br : Nat) : scaledNat ch br ≤ scaledNat ch' br := by
  rw [scaledNat, scaledNat]
  split
  · exact h
  · exact Nat.div_le_div_right (Nat.mul_le_mul_right br h)

/-- The step to full brightness included, where a channel is no longer multiplied (R74). -/
theorem scaledNat_mono_brightness (ch : Nat) {br br' : Nat} (h : br ≤ br') (hbr : br' ≤ 255) :
    scaledNat ch br ≤ scaledNat ch br' := by
  by_cases hfull : br' = 255
  · calc scaledNat ch br ≤ ch := scaledNat_le (h.trans hbr)
      _ = scaledNat ch br' := by rw [scaledNat, if_pos hfull]
  · have hne : br ≠ 255 := by omega
    rw [scaledNat, scaledNat, if_neg hfull, if_neg hne]
    exact Nat.div_le_div_right (Nat.mul_le_mul_left ch h)

theorem byte_toNat_le (b : Byte) : b.toNat ≤ 255 := Nat.le_of_lt_succ b.isLt

theorem channelNats_le (c : Color) : redNat c ≤ 255 ∧ greenNat c ≤ 255 ∧ blueNat c ≤ 255 := by
  have := c.isLt
  simp only [redNat, greenNat, blueNat]
  omega

/-- Settles O27: each channel is scaled on its own (`scaleColor_channels`), and both bounds are those of `scaledNat`. -/
theorem scaleNeverRaisesChannel : Obligations.ScaleNeverRaisesChannel := by
  intro c br s
  obtain ⟨hr, hg, hb⟩ := scaleColor_channels c br
  obtain ⟨hr', hg', hb'⟩ := channelNats_le c
  have hbr := byte_toNat_le br
  refine ⟨scaleColor c br, exec_scale c br s, ?_, fun hne => ?_⟩
  · rw [hr, hg, hb]
    exact ⟨scaledNat_le hbr, scaledNat_le hbr, scaledNat_le hbr⟩
  · have hne' : br.toNat ≠ 255 := fun h => hne (BitVec.eq_of_toNat_eq h)
    rw [hr, hg, hb]
    exact ⟨scaledNat_le_of_ne hr' hbr hne', scaledNat_le_of_ne hg' hbr hne', scaledNat_le_of_ne hb' hbr hne'⟩

/-- Settles O28: each channel is scaled on its own (`scaleColor_channels`), and `scaledNat` is monotone in both
arguments. -/
theorem scaleMonotone : Obligations.ScaleMonotone := by
  refine ⟨fun c c' br => ?_, fun c br br' h => ?_⟩
  · obtain ⟨hr, hg, hb⟩ := scaleColor_channels c br
    obtain ⟨hr', hg', hb'⟩ := scaleColor_channels c' br
    rw [hr, hg, hb, hr', hg', hb']
    exact ⟨(scaledNat_mono_channel · _), (scaledNat_mono_channel · _), (scaledNat_mono_channel · _)⟩
  · obtain ⟨hr, hg, hb⟩ := scaleColor_channels c br
    obtain ⟨hr', hg', hb'⟩ := scaleColor_channels c br'
    have hbr := byte_toNat_le br'
    rw [hr, hg, hb, hr', hg', hb']
    exact ⟨scaledNat_mono_brightness _ h hbr, scaledNat_mono_brightness _ h hbr, scaledNat_mono_brightness _ h hbr⟩

end Sys2Proof.Machine
end

section
/-! Bounds on the steps of FROM_HSL (40_color_codec.md R62 to R65). -/

namespace Sys2Proof.Machine

/-- The distance from the middle luminosity leaves a factor of at most 100 that no luminosity makes negative, and that
is at most twice the luminosity and twice its complement (R54). -/
theorem chromaFactor_bounds {l : Int} (h0 : 0 ≤ l) (h99 : l ≤ 99) :
    0 ≤ 100 - |2 * l - 100| ∧ 100 - |2 * l - 100| ≤ 2 * l ∧ 100 - |2 * l - 100| ≤ 200 - 2 * l := by
  obtain ⟨h, hl⟩ | ⟨h, hl⟩ := abs_cases (2 * l - 100) <;> omega

section
variable {s l : Int} (hl0 : 0 ≤ l) (hl99 : l ≤ 99)
include hl0 hl99

/-- Chroma's dividend before the division by 10000 is not negative. -/
theorem chromaProduct_nonneg (hs0 : 0 ≤ s) : 0 ≤ (100 - |2 * l - 100|) * s :=
  mul_nonneg (chromaFactor_bounds hl0 hl99).1 hs0

theorem chroma_nonneg (hs0 : 0 ≤ s) : 0 ≤ chroma s l := by
  have := chromaProduct_nonneg hl0 hl99 hs0
  rw [chroma_eq_abs]
  omega

theorem chroma_eq_zero_iff (hs0 : 0 ≤ s) : chroma s l = 0 ↔ (100 - |2 * l - 100|) * s * 256 < 10000 := by
  have := chromaProduct_nonneg hl0 hl99 hs0
  rw [chroma_eq_abs]
  omega

/-- Chroma at the largest saturation bounds the others: twice 99 * 256 / 10000 a step of luminosity from either end. -/
theorem chroma_le_factor (hs99 : s ≤ 99) : 10000 * chroma s l ≤ 50688 * l ∧ 10000 * chroma s l ≤ 50688 * (100 - l) := by
  obtain ⟨h0, hlow, hhigh⟩ := chromaFactor_bounds hl0 hl99
  have hmul : (100 - |2 * l - 100|) * s ≤ (100 - |2 * l - 100|) * 99 := mul_le_mul_of_nonneg_left hs99 h0
  rw [chroma_eq_abs]
  omega

theorem chroma_le (hs99 : s ≤ 99) : chroma s l ≤ 253 := by
  have := chroma_le_factor hl0 hl99 hs99
  omega

/-- The second dividend of step 9 is not negative: chroma is at most `a` (R65). -/
theorem chroma_le_offsetDividend (hs99 : s ≤ 99) : chroma s l ≤ 512 * l / 100 := by
  have := chroma_le_factor hl0 hl99 hs99
  omega

/-- Both truncating divisions of step 9 are floors (R65). -/
theorem lightnessOffset_eq_ediv (hs99 : s ≤ 99) :
    lightnessOffset l (chroma s l) = (512 * l / 100 - chroma s l) / 2 := by
  have := chroma_le_offsetDividend hl0 hl99 hs99
  have ha : (512 * l).tdiv 100 = 512 * l / 100 := Int.tdiv_eq_ediv_of_nonneg (by omega)
  rw [lightnessOffset_eq, ha, Int.tdiv_eq_ediv_of_nonneg (by omega)]

/-- The largest channel with its offset stays in a byte (R66). -/
theorem chroma_add_lightnessOffset_le (hs99 : s ≤ 99) : chroma s l + lightnessOffset l (chroma s l) ≤ 255 := by
  have := chroma_le_factor hl0 hl99 hs99
  rw [lightnessOffset_eq_ediv hl0 hl99 hs99]
  omega

theorem lightnessOffset_nonneg (hs99 : s ≤ 99) : 0 ≤ lightnessOffset l (chroma s l) := by
  have := chroma_le_offsetDividend hl0 hl99 hs99
  rw [lightnessOffset_eq_ediv hl0 hl99 hs99]
  omega

end

/-- A factor of 0 gives no chroma (R62). -/
theorem chroma_of_zero {s l : Int} (h : s = 0 ∨ l = 0) : chroma s l = 0 := by
  rw [chroma_eq_abs]
  obtain rfl | rfl := h <;> simp

/-- Settles O18: the bounds are `chroma_nonneg` and `chroma_le`, the zeros `chroma_eq_zero_iff` and `chroma_of_zero`. -/
theorem chromaRange : Obligations.ChromaRange :=
  ⟨rfl, fun _ _ hs0 hs99 hl0 hl99 => ⟨chroma_nonneg hl0 hl99 hs0, chroma_le hl0 hl99 hs99,
    chroma_eq_zero_iff hl0 hl99 hs0, chroma_of_zero⟩⟩

end Sys2Proof.Machine
end

section
/-! Sectors, sub-positions and the second-largest component (40_color_codec.md R55 to R57, R63, R64). -/

namespace Sys2Proof.Machine

/-- The sub-position depends on the hue's place in its sector (R55). -/
theorem subPosition_eq (h : Int) : subPosition h = (h % 60) * 256 / 60 := by
  unfold subPosition hueSector
  omega

theorem subPosition_bounds (h : Int) : 0 ≤ subPosition h ∧ subPosition h ≤ 251 := by
  rw [subPosition_eq]
  omega

/-- The two parities of step 6 (R57). -/
theorem sectorTemp_of_even {h : Int} (he : hueSector h % 2 = 0) :
    256 - sectorTemp (hueSector h) (subPosition h) = subPosition h := by
  obtain ⟨h0, h1⟩ := subPosition_bounds h
  rw [sectorTemp_eq_abs, he, abs_of_nonpos (by omega)]
  omega

theorem sectorTemp_of_odd {h : Int} (ho : hueSector h % 2 = 1) :
    256 - sectorTemp (hueSector h) (subPosition h) = 256 - subPosition h := by
  obtain ⟨h0, h1⟩ := subPosition_bounds h
  rw [sectorTemp_eq_abs, ho, abs_of_nonneg (by omega)]
  omega

theorem sectorTemp_bounds (h : Int) :
    0 ≤ sectorTemp (hueSector h) (subPosition h) ∧ sectorTemp (hueSector h) (subPosition h) ≤ 256 := by
  obtain ⟨h0, h1⟩ := subPosition_bounds h
  obtain he | ho := Int.emod_two_eq_zero_or_one (hueSector h)
  · have := sectorTemp_of_even he
    omega
  · have := sectorTemp_of_odd ho
    omega

/-- The sixty values of R63. -/
def subPositionTable : List Int :=
  [0, 4, 8, 12, 17, 21, 25, 29, 34, 38, 42, 46, 51, 55, 59, 64, 68, 72, 76, 81, 85, 89, 93, 98, 102, 106, 110, 115,
    119, 123, 128, 132, 136, 140, 145, 149, 153, 157, 162, 166, 170, 174, 179, 183, 187, 192, 196, 200, 204, 209, 213,
    217, 221, 226, 230, 234, 238, 243, 247, 251]

theorem subPositionTable_getElem? : ∀ r : Nat, r < 60 → subPositionTable[r]? = some ((r : Int) * 256 / 60) := by decide

/-- Settles O19: the sub-position is that of the place in the sector (`subPosition_eq`), and each of the sixty places
has the table's value. -/
theorem sectorRanges : Obligations.SectorRanges := by
  intro h h0 h359
  refine ⟨by unfold hueSector; omega, subPosition_bounds h, sectorTemp_bounds h, ?_⟩
  have hplace : h - 60 * hueSector h = h % 60 := by unfold hueSector; omega
  have hnat : ((h % 60).toNat : Int) = h % 60 := by omega
  rw [hplace, subPosition_eq, ← hnat]
  exact subPositionTable_getElem? _ (by omega)

theorem secondComponent_eq (c temp : Int) : secondComponent c temp = c * (256 - temp) / 256 := rfl

/-- Settles O20: the parities are `sectorTemp_of_even` and `sectorTemp_of_odd`, and at a sector's start the sub-position
is 0. -/
theorem secondComponentBySector : Obligations.SecondComponentBySector := by
  intro h c h0 h359 temp x
  obtain ⟨ht0, ht256⟩ := sectorTemp_bounds h
  have heven (he : hueSector h % 2 = 0) : x = c * subPosition h / 256 := by
    rw [← sectorTemp_of_even he]
    rfl
  have hodd (ho : hueSector h % 2 = 1) : x = c * (256 - subPosition h) / 256 := by
    rw [← sectorTemp_of_odd ho]
    rfl
  refine ⟨rfl, ht256, fun hc => mul_nonneg hc (by omega), heven, hodd, fun hstart he => ?_, fun hstart ho => ?_⟩
  · rw [heven he, subPosition_eq, hstart]
    simp
  · rw [hodd ho, subPosition_eq, hstart]
    simp

/-- The second-largest component lies between 0 and the largest (R64). -/
theorem secondComponent_bounds {c : Int} (hc : 0 ≤ c) (h : Int) :
    0 ≤ secondComponent c (sectorTemp (hueSector h) (subPosition h)) ∧
      secondComponent c (sectorTemp (hueSector h) (subPosition h)) ≤ c := by
  obtain ⟨ht0, ht256⟩ := sectorTemp_bounds h
  have hlow := mul_nonneg hc (sub_nonneg.mpr ht256)
  have hhigh : c * (256 - sectorTemp (hueSector h) (subPosition h)) ≤ c * 256 :=
    mul_le_mul_of_nonneg_left (by omega) hc
  rw [secondComponent_eq]
  omega

/-- Settles O21, by `secondComponent_bounds` at the chroma, which is not negative. -/
theorem secondComponentAtMostChroma : Obligations.SecondComponentAtMostChroma := by
  intro h s l _ _ hs0 _ hl0 hl99
  obtain ⟨ht0, ht256⟩ := sectorTemp_bounds h
  exact ⟨by omega, secondComponent_bounds (chroma_nonneg hl0 hl99 hs0) h⟩

/-- Settles O22: no dividend is negative by `chroma_le_offsetDividend`, so the ranges are those of the floors. -/
theorem offsetDividendsNonNegative : Obligations.OffsetDividendsNonNegative := by
  intro s l hs0 hs99 hl0 hl99 a
  have ha : a = 512 * l / 100 := Int.tdiv_eq_ediv_of_nonneg (by omega)
  have hc := chroma_nonneg hl0 hl99 hs0
  have hca := chroma_le_offsetDividend hl0 hl99 hs99
  have hm := lightnessOffset_eq_ediv hl0 hl99 hs99
  refine ⟨by omega, ha, by omega, by rw [ha, hm], by omega, fun h _ _ => mul_nonneg hc ?_⟩
  exact sub_nonneg.mpr (sectorTemp_bounds h).2

/-- Settles O24: one division by 200 is the two floors of `lightnessOffset_eq_ediv`; the witness is the rule's. -/
theorem combinedDivisionSameOffset : Obligations.CombinedDivisionSameOffset := by
  refine ⟨fun s l hs0 hs99 hl0 hl99 => ?_, by decide⟩
  rw [lightnessOffset_eq_ediv hl0 hl99 hs99]
  omega

end Sys2Proof.Machine
end

section
/-! FROM_HSL as a whole (40_color_codec.md R50, R66, R67). -/

namespace Sys2Proof.Machine

theorem clampPercent_bounds (v : Int) : 0 ≤ clampPercent v ∧ clampPercent v ≤ 99 := by
  rw [clampPercent_eq_max_min]
  omega

theorem clampPercent_of_mem {v : Int} (h0 : 0 ≤ v) (h99 : v ≤ 99) : clampPercent v = v := by
  rw [clampPercent_eq_max_min]
  omega

/-- Each routed component is 0, the second-largest or the largest (R58), so it lies between 0 and the largest. -/
theorem routeSector_bounds {c x : Int} (hx0 : 0 ≤ x) (hxc : x ≤ c) (h1 : Int) :
    (0 ≤ (routeSector h1 c x).1 ∧ (routeSector h1 c x).1 ≤ c) ∧
    (0 ≤ (routeSector h1 c x).2.1 ∧ (routeSector h1 c x).2.1 ≤ c) ∧
    (0 ≤ (routeSector h1 c x).2.2 ∧ (routeSector h1 c x).2.2 ≤ c) := by
  unfold routeSector
  split_ifs <;> simp only <;> omega

/-- Settles O16: the hue enters only reduced modulo 360 (D7). -/
theorem fromHslPeriodicInHue : Obligations.FromHslPeriodicInHue := by
  intro h s l k st
  have hh : reduceHue (h + 360 * k) = reduceHue h := Int.add_mul_emod_self_left h 360 k
  rw [exec_fromHsl, exec_fromHsl, hslColor, hh]
  rfl

/-- At full luminosity the saturations 79 to 97 have one chroma (log entry 18). -/
theorem chroma_at_full_luminosity {s : Int} (h79 : 79 ≤ s) (h97 : s ≤ 97) : chroma s 99 = 4 := by
  have : chroma s 99 = 2 * s * 256 / 10000 := rfl
  omega

/-- Settles O23: each component is at most the chroma (`routeSector_bounds`), and the chroma with its offset fits in a
byte (`chroma_add_lightnessOffset_le`). -/
theorem fromHslChannelsNeverWrap : Obligations.FromHslChannelsNeverWrap := by
  refine ⟨?_, fun s st h79 h97 => ?_⟩
  · intro h0 s0 l0 st h c m p
    obtain ⟨hs0, hs99⟩ := clampPercent_bounds s0
    obtain ⟨hl0, hl99⟩ := clampPercent_bounds l0
    obtain ⟨hx0, hxc⟩ := secondComponent_bounds (chroma_nonneg hl0 hl99 hs0) h
    have hm0 : 0 ≤ m := lightnessOffset_nonneg hl0 hl99 hs99
    have hcm : c + m ≤ 255 := chroma_add_lightnessOffset_le hl0 hl99 hs99
    obtain ⟨⟨hr0, hr⟩, ⟨hg0, hg⟩, ⟨hb0, hb⟩⟩ :
        (0 ≤ p.1 ∧ p.1 ≤ c) ∧ (0 ≤ p.2.1 ∧ p.2.1 ≤ c) ∧ (0 ≤ p.2.2 ∧ p.2.2 ≤ c) :=
      routeSector_bounds hx0 hxc (hueSector h)
    exact ⟨by omega, by omega, by omega, rfl⟩
  · have hclamp : clampPercent s = s := clampPercent_of_mem (by omega) (by omega)
    have hl : clampPercent 99 = 99 := rfl
    rw [exec_fromHsl, exec_pack, hslColor]
    simp only [hclamp, hl, chroma_at_full_luminosity h79 h97]
    rfl

/-- Without chroma every component is 0, so the color is a grey of the offset (R50). -/
theorem hslColor_of_chroma_zero {s l : Int} (h : chroma (clampPercent s) (clampPercent l) = 0) (hue : Int) :
    hslColor hue s l = packColor (lightnessOffset (clampPercent l) 0) (lightnessOffset (clampPercent l) 0)
      (lightnessOffset (clampPercent l) 0) := by
  have hx (temp : Int) : secondComponent 0 temp = 0 := by simp [secondComponent_eq]
  have hroute (h1 : Int) : routeSector h1 0 0 = (0, 0, 0) := by unfold routeSector; split_ifs <;> rfl
  simp only [hslColor, h, hx, hroute, zero_add]

/-- Settles O25: the clamped saturation or luminosity is 0, so there is no chroma. -/
theorem fromHslGreyWithoutChroma : Obligations.FromHslGreyWithoutChroma := by
  intro h s l st hsl m
  obtain ⟨-, hs99⟩ := clampPercent_bounds s
  obtain ⟨hl0, hl99⟩ := clampPercent_bounds l
  have hzero : clampPercent s = 0 ∨ clampPercent l = 0 := by
    rw [clampPercent_eq_max_min, clampPercent_eq_max_min]
    omega
  have hc : chroma (clampPercent s) (clampPercent l) = 0 := chroma_of_zero hzero
  have hm : lightnessOffset (clampPercent l) 0 = m := by
    have := lightnessOffset_eq_ediv hl0 hl99 hs99
    rw [hc, sub_zero, clampPercent_eq_max_min] at this
    rw [clampPercent_eq_max_min]
    exact this
  rw [exec_fromHsl, exec_pack, hslColor_of_chroma_zero hc, hm]

end Sys2Proof.Machine
end

section
/-! The digits of the statements and those of the reader (30_encoding.md R46). -/

namespace Sys2Proof.Machine

/-- The reader knows exactly the digits that the statements list, each with the listed value. -/
theorem mem_decimalDigits_iff {d : Char × Nat} : d ∈ decimalDigits ↔ decimalDigit d.1 = some d.2 := by
  constructor
  · revert d
    decide
  · obtain ⟨c, n⟩ := d
    rw [decimalDigit_eq_some_iff]
    rintro ⟨hn : n < 10, rfl : c = Char.ofNat (48 + n)⟩
    interval_cases n <;> decide

theorem mem_hexDigits_iff {d : Char × Nat} : d ∈ hexDigits ↔ hexDigit d.1 = some d.2 := by
  constructor
  · revert d
    decide
  · obtain ⟨c, n⟩ := d
    simp only [hexDigit_eq_some_iff]
    rintro (⟨hn, rfl⟩ | ⟨hl, hn, rfl | rfl⟩) <;> interval_cases n <;> decide

/-- A text all of whose characters are digits is a list of digits with their values. -/
theorem map_digit_eq_map_some_iff {digit : Char → Option Nat} {text : List Char} {vs : List Nat} :
    text.map digit = vs.map some ↔
      ∃ ds : Digits, (∀ d ∈ ds, digit d.1 = some d.2) ∧ text = ds.map Prod.fst ∧ vs = ds.map Prod.snd := by
  constructor
  · intro h
    induction text generalizing vs with
    | nil => exact ⟨[], by simp, rfl, by simpa using h⟩
    | cons c text ih =>
      obtain ⟨v, vs, rfl⟩ : ∃ v vs', vs = v :: vs' := by
        cases vs with
        | nil => cases h
        | cons v vs => exact ⟨v, vs, rfl⟩
      obtain ⟨hc, htext⟩ := List.cons_eq_cons.mp h
      obtain ⟨ds, hds, rfl, rfl⟩ := ih htext
      exact ⟨(c, v) :: ds, List.forall_mem_cons.mpr ⟨hc, hds⟩, rfl, rfl⟩
  · rintro ⟨ds, hds, rfl, rfl⟩
    simpa using hds

/-- Reading a number succeeds exactly on digits, and gives the number they write. -/
theorem readNumber_eq_some_iff_digits {digit : Char → Option Nat} {base v : Nat} {text : List Char} :
    readNumber digit base text = some v ↔
      ∃ ds : Digits, ds ≠ [] ∧ (∀ d ∈ ds, digit d.1 = some d.2) ∧ text = ds.map Prod.fst ∧ v = numberIn base ds := by
  rw [readNumber_eq_some_iff]
  simp only [map_digit_eq_map_some_iff]
  constructor
  · rintro ⟨hne, _, ⟨ds, hds, rfl, rfl⟩, rfl⟩
    exact ⟨ds, by simpa using hne, hds, rfl, List.foldl_map⟩
  · rintro ⟨ds, hne, hds, rfl, rfl⟩
    exact ⟨by simpa using hne, _, ⟨ds, hds, rfl, rfl⟩, List.foldl_map.symm⟩

theorem readNumber_decimal_iff {v : Nat} {text : List Char} : readNumber decimalDigit 10 text = some v ↔
    ∃ ds : Digits, ds ≠ [] ∧ (∀ d ∈ ds, d ∈ decimalDigits) ∧ text = ds.map Prod.fst ∧ v = numberIn 10 ds := by
  simp only [readNumber_eq_some_iff_digits, mem_decimalDigits_iff]

theorem readNumber_hex_iff {v : Nat} {text : List Char} : readNumber hexDigit 16 text = some v ↔
    ∃ ds : Digits, ds ≠ [] ∧ (∀ d ∈ ds, d ∈ hexDigits) ∧ text = ds.map Prod.fst ∧ v = numberIn 16 ds := by
  simp only [readNumber_eq_some_iff_digits, mem_hexDigits_iff]

end Sys2Proof.Machine
end

section
/-! One operand's text (30_encoding.md R46): each way to write it on its own, then all three. -/

namespace Sys2Proof.Machine

theorem readOperand_hex_iff {text : List Char} {v : Word} : readOperand ('0' :: 'x' :: text) = some v ↔
    readNumber hexDigit 16 text = some v.toNat := by
  have hv := v.isLt
  simp only [readOperand, Option.bind_eq_some_iff]
  constructor
  · rintro ⟨n, hn, h⟩
    split at h
    · cases h
      rwa [BitVec.toNat_ofNat, Nat.mod_eq_of_lt ‹_›]
    · cases h
  · intro h
    exact ⟨_, h, by rw [if_pos hv, BitVec.ofNat_toNat, BitVec.setWidth_eq]⟩

theorem readOperand_negative_iff {text : List Char} {v : Word} : readOperand ('-' :: text) = some v ↔
    ∃ n : Nat, readNumber decimalDigit 10 text = some n ∧ v.toInt = -(n : Int) := by
  simp only [readOperand, Option.bind_eq_some_iff, decimalField_eq_some_iff]

/-- What decimal digits write starts with neither mark. -/
theorem readOperand_of_decimal {ds : Digits} (hds : ∀ d ∈ ds, d ∈ decimalDigits) :
    readOperand (ds.map Prod.fst) = (readNumber decimalDigit 10 (ds.map Prod.fst)).bind fun n => decimalField n := by
  have hmark : ∀ c ∈ ds.map Prod.fst, c ≠ '-' ∧ c ≠ 'x' := by
    intro c hc
    obtain ⟨d, hd, rfl⟩ := List.mem_map.mp hc
    exact (by decide : ∀ d ∈ decimalDigits, d.1 ≠ '-' ∧ d.1 ≠ 'x') d (hds d hd)
  unfold readOperand
  split
  · next h => exact absurd rfl (hmark 'x' (by simp [h])).2
  · next h => exact absurd rfl (hmark '-' (by simp [h])).1
  · rfl

/-- A text is read as the operand it writes, and no other text is read (R46). -/
theorem readOperand_eq_some_iff_writesOperand (text : List Char) (v : Word) :
    readOperand text = some v ↔ WritesOperand text v := by
  constructor
  · intro h
    unfold readOperand at h
    split at h
    · obtain ⟨ds, hne, hds, rfl, hv⟩ := readNumber_hex_iff.mp (readOperand_hex_iff.mp h)
      exact .inr (.inr ⟨ds, hne, hds, rfl, hv⟩)
    · obtain ⟨n, hn, hv⟩ := readOperand_negative_iff.mp h
      obtain ⟨ds, hne, hds, rfl, rfl⟩ := readNumber_decimal_iff.mp hn
      exact .inr (.inl ⟨ds, hne, hds, rfl, hv⟩)
    · obtain ⟨n, hn, hv⟩ := Option.bind_eq_some_iff.mp h
      obtain ⟨ds, hne, hds, rfl, rfl⟩ := readNumber_decimal_iff.mp hn
      exact .inl ⟨ds, hne, hds, rfl, decimalField_eq_some_iff.mp hv⟩
  · rintro (⟨ds, hne, hds, rfl, hv⟩ | ⟨ds, hne, hds, rfl, hv⟩ | ⟨ds, hne, hds, rfl, hv⟩)
    · rw [readOperand_of_decimal hds, readNumber_decimal_iff.mpr ⟨ds, hne, hds, rfl, rfl⟩]
      exact decimalField_eq_some_iff.mpr hv
    · exact readOperand_negative_iff.mpr ⟨_, readNumber_decimal_iff.mpr ⟨ds, hne, hds, rfl, rfl⟩, hv⟩
    · exact readOperand_hex_iff.mpr (readNumber_hex_iff.mpr ⟨ds, hne, hds, rfl, hv⟩)

/-- The numbers that a word carries as a signed value (00_scope.md section 4). -/
theorem exists_toInt_eq_iff {n : Int} : (∃ v : Word, v.toInt = n) ↔ -2147483648 ≤ n ∧ n ≤ 2147483647 := by
  constructor
  · rintro ⟨v, rfl⟩
    have := v.le_toInt
    have := v.toInt_lt
    omega
  · rintro ⟨hl, hu⟩
    refine ⟨signedField n, signed32_signedField ?_⟩
    rw [inSigned32, decide_eq_true hl, decide_eq_true hu, Bool.and_self]

theorem exists_toNat_eq_iff {n : Nat} : (∃ v : Word, v.toNat = n) ↔ n ≤ 0xFFFFFFFF := by
  constructor
  · rintro ⟨v, rfl⟩
    have := v.isLt
    omega
  · intro h
    exact ⟨BitVec.ofNat 32 n, by rw [BitVec.toNat_ofNat]; omega⟩

/-- Settles O54: the reader is the grammar by `readOperand_eq_some_iff_writesOperand`, and digits are read exactly when
some word carries their number. -/
theorem operandTextReadsAsWritten : Obligations.OperandTextReadsAsWritten := by
  refine ⟨readOperand_eq_some_iff_writesOperand, fun ds hne hds => ?_, fun ds hne hds => ?_⟩
  · have hread := readNumber_decimal_iff.mpr ⟨ds, hne, hds, rfl, rfl⟩
    constructor
    · simp only [readOperand_of_decimal hds, hread, Option.bind_some, decimalField_eq_some_iff, exists_toInt_eq_iff]
      omega
    · simp only [readOperand_negative_iff, hread, Option.some.injEq, exists_eq_left', exists_toInt_eq_iff]
      omega
  · have hread := readNumber_hex_iff.mpr ⟨ds, hne, hds, rfl, rfl⟩
    simp only [readOperand_hex_iff, hread, Option.some.injEq, eq_comm (a := numberIn 16 ds), exists_toNat_eq_iff]

end Sys2Proof.Machine
end

section
/-! Whole command texts (30_encoding.md R46). -/

namespace Sys2Proof.Machine

theorem writtenName_toList (m : Mnemonic) : (writtenName m).toList = mnemonicText m := by cases m <;> rfl

theorem operandCount_eq_writtenCount (m : Mnemonic) : operandCount m = writtenCount m := by cases m <;> rfl

/-- The right number of operand patterns fills the fields in order (R46). -/
theorem assembleFields_of_count {m : Mnemonic} {ops : List Word} (h : ops.length = writtenCount m) :
    ∃ w i, assembleFields m ops = some w ∧ decode w = .instr i ∧ i.mnemonic = m ∧
      (opaField w = ops.getD 0 0 ∧ opbField w = ops.getD 1 0 ∧ opcField w = ops.getD 2 0) := by
  rw [← operandCount_eq_writtenCount] at h
  exact ⟨_, _, if_pos h, decode_commandWord .., readOperands_mnemonic .., opaField_commandWord ..,
    opbField_commandWord .., opcField_commandWord ..⟩

theorem assembleFields_of_count_ne {m : Mnemonic} {ops : List Word} (h : ops.length ≠ writtenCount m) :
    assembleFields m ops = none := by
  rw [← operandCount_eq_writtenCount] at h
  exact if_neg h

/-- A text that writes an operand is not empty and holds neither a comma nor a blank. -/
theorem writesOperand_clean {text : List Char} {v : Word} (h : WritesOperand text v) :
    text ≠ [] ∧ ',' ∉ text ∧ ' ' ∉ text := by
  have hhex {ds : Digits} (hds : ∀ d ∈ ds, d ∈ hexDigits) : ∀ c ∈ ds.map Prod.fst, c ≠ ',' ∧ c ≠ ' ' := by
    intro c hc
    obtain ⟨d, hd, rfl⟩ := List.mem_map.mp hc
    exact (by decide : ∀ d ∈ hexDigits, d.1 ≠ ',' ∧ d.1 ≠ ' ') d (hds d hd)
  have hdecimal {ds : Digits} (hds : ∀ d ∈ ds, d ∈ decimalDigits) : ∀ c ∈ ds.map Prod.fst, c ≠ ',' ∧ c ≠ ' ' :=
    hhex fun d hd => List.mem_append_left _ (List.mem_append_left _ (hds d hd))
  suffices hclean : text ≠ [] ∧ ∀ c ∈ text, c ≠ ',' ∧ c ≠ ' ' from
    ⟨hclean.1, fun hm => (hclean.2 _ hm).1 rfl, fun hm => (hclean.2 _ hm).2 rfl⟩
  obtain ⟨ds, hne, hds, rfl, -⟩ | ⟨ds, -, hds, rfl, -⟩ | ⟨ds, -, hds, rfl, -⟩ := h
  · exact ⟨by simpa using hne, hdecimal hds⟩
  · exact ⟨List.cons_ne_nil _ _, List.forall_mem_cons.mpr ⟨by decide, hdecimal hds⟩⟩
  · exact ⟨List.cons_ne_nil _ _, List.forall_mem_cons.mpr ⟨by decide, List.forall_mem_cons.mpr ⟨by decide, hhex hds⟩⟩⟩

/-- A command text is assembled from its operands' texts, each read on its own. -/
theorem assemble_commandText (blanks : Nat) (m : Mnemonic) {texts : List (List Char)}
    (h : ∀ t ∈ texts, t ≠ [] ∧ ',' ∉ t ∧ ' ' ∉ t) :
    assemble (commandText blanks m texts) = (texts.mapM readOperand).bind (assembleFields m) := by
  cases texts with
  | nil => rw [commandText, writtenName_toList, assemble_mnemonic]; rfl
  | cons t ts => rw [commandText, writtenName_toList, assemble_operands blanks m t ts h]

theorem mapM_readOperand_of_writesOperand {ops : List (List Char × Word)} (h : ∀ p ∈ ops, WritesOperand p.1 p.2) :
    (ops.map Prod.fst).mapM readOperand = some (ops.map Prod.snd) := by
  induction ops with
  | nil => rfl
  | cons p ops ih =>
    obtain ⟨hp, hops⟩ := List.forall_mem_cons.mp h
    simp [(readOperand_eq_some_iff_writesOperand ..).mpr hp, ih hops]

theorem mapM_readOperand_of_not_writesOperand {texts : List (List Char)}
    (h : ∃ t ∈ texts, ∀ v, ¬ WritesOperand t v) : texts.mapM readOperand = none := by
  induction texts with
  | nil =>
    obtain ⟨t, ht, -⟩ := h
    cases ht
  | cons t ts ih =>
    rw [List.mapM_cons]
    cases hr : readOperand t with
    | none => rfl
    | some v =>
      have hrest : ∃ u ∈ ts, ∀ v, ¬ WritesOperand u v := by
        obtain ⟨u, hu, hbad⟩ := h
        obtain rfl | hu := List.mem_cons.mp hu
        · exact absurd ((readOperand_eq_some_iff_writesOperand ..).mp hr) (hbad v)
        · exact ⟨u, hu, hbad⟩
      rw [ih hrest]
      rfl

/-- The digits of a listing are read back (R46). -/
theorem hexDigit_hexChar : ∀ d < 16, hexDigit (hexChar d) = some d := by decide

theorem readDigits_append {digit : Char → Option Nat} {base acc v : Nat} {xs ys : List Char}
    (h : readDigits digit base acc xs = some v) :
    readDigits digit base acc (xs ++ ys) = readDigits digit base v ys := by
  induction xs generalizing acc with
  | nil => cases h; rfl
  | cons c xs ih =>
    cases hc : digit c with
    | none => simp [readDigits, hc] at h
    | some d => simp only [readDigits, hc, List.cons_append] at h ⊢; exact ih h

theorem readDigits_hexText (k v : Nat) : readDigits hexDigit 16 0 (hexText k v) = some (v % 16 ^ k) := by
  induction k generalizing v with
  | zero => rw [pow_zero, Nat.mod_one]; rfl
  | succ k ih =>
    rw [hexText, readDigits_append (ih (v / 16))]
    simp only [readDigits, hexDigit_hexChar _ (Nat.mod_lt v (by decide : 16 > 0))]
    rw [Nat.pow_succ', Nat.mod_mul, Nat.mul_comm, Nat.add_comm]

/-- Eight hexadecimal digits are read as the pattern they write. -/
theorem readOperand_hexText (v : Word) : readOperand ('0' :: 'x' :: hexText 8 v.toNat) = some v := by
  have hne : hexText 8 v.toNat ≠ [] := List.append_ne_nil_of_right_ne_nil _ (List.cons_ne_nil _ _)
  have hv : v.toNat < 16 ^ 8 := v.isLt
  rw [readOperand_hex_iff, readNumber, if_neg hne, readDigits_hexText, Nat.mod_eq_of_lt hv]

/-- Settles O7: a text is assembled from its operands by `assemble_commandText`, and the fields from the patterns by
`assembleFields_of_count`. -/
theorem assembledCommandDecodes : Obligations.AssembledCommandDecodes := by
  refine ⟨fun m ops => assembleFields_of_count, fun m ops => assembleFields_of_count_ne, fun blanks m ops hops => ?_,
    fun blanks m texts hclean hbad => ?_, readOperand_hexText⟩
  · have hclean : ∀ t ∈ ops.map Prod.fst, t ≠ [] ∧ ',' ∉ t ∧ ' ' ∉ t := by
      intro t ht
      obtain ⟨p, hp, rfl⟩ := List.mem_map.mp ht
      exact writesOperand_clean (hops p hp)
    rw [assemble_commandText blanks m hclean, mapM_readOperand_of_writesOperand hops, Option.bind_some,
      ← List.length_map (f := Prod.snd)]
    exact ⟨assembleFields_of_count, assembleFields_of_count_ne⟩
  · rw [assemble_commandText blanks m hclean, mapM_readOperand_of_not_writesOperand hbad, Option.bind_none]

/-- Settles O6: closed words, decoded by evaluation. -/
theorem listedWordsDecode : Obligations.ListedWordsDecode := by
  unfold Obligations.ListedWordsDecode
  decide

end Sys2Proof.Machine
end
